-- ==== Sys2Proof/Word.lean ====
section
/-! DEFINITION. The value types of the machine (00_scope.md R4, R8). -/

namespace Sys2Proof

/-- One byte: a general register, a timer, a memory cell, an immediate `kk` (R4). -/
abbrev Byte := BitVec 8

/-- Sixteen bits: an instruction word, `I`, `PC`, a stack slot (R4). -/
abbrev Word := BitVec 16

/-- The number of a general register, 0 to 15 (10_state.md R20). -/
abbrev Reg := Fin 16

/-- A 4-bit immediate or sub-opcode (30_encoding.md R71). -/
abbrev Nibble := BitVec 4

/-- The 12-bit address field `nnn` (30_encoding.md R71). -/
abbrev Addr12 := BitVec 12

/-- The number of the flag register `VF` (10_state.md R21). -/
def regF : Reg := 15

end Sys2Proof
end

