-- ==== Sys2Proof/Machine/Fields.lean ====
section
/-! DEFINITION. The fields of an instruction word, the words made of them, and the byte order of a word
(30_encoding.md R71 to R73, R76; 20_memory.md R52). -/

namespace Sys2Proof

/-- `op = w[15:12]` (R71). -/
def opField (w : Word) : Nibble := w.extractLsb' 12 4

/-- `x = w[11:8]` (R71). -/
def xField (w : Word) : Reg := (w.extractLsb' 8 4).toFin

/-- `y = w[7:4]` (R71). -/
def yField (w : Word) : Reg := (w.extractLsb' 4 4).toFin

/-- `n = w[3:0]` (R71). -/
def nField (w : Word) : Nibble := w.extractLsb' 0 4

/-- `kk = w[7:0]` (R71). -/
def kkField (w : Word) : Byte := w.extractLsb' 0 8

/-- `nnn = w[11:0]` (R71). -/
def nnnField (w : Word) : Addr12 := w.extractLsb' 0 12

/-- The four bits of a register number in a word. -/
def regBits (x : Reg) : Nibble := BitVec.ofFin x

/-- A word of the formats `XY` and `XYN` (R72). -/
def wordXYN (op : Nibble) (x y : Reg) (n : Nibble) : Word := op ++ regBits x ++ regBits y ++ n

/-- A word of the formats `XKK` and `X` (R72). -/
def wordXKK (op : Nibble) (x : Reg) (kk : Byte) : Word := op ++ regBits x ++ kk

/-- A word of the format `NNN` (R72). -/
def wordNNN (op : Nibble) (nnn : Addr12) : Word := op ++ nnn

/-- The byte of a word that lies at the lower address (big-endian, 20_memory.md R52). -/
def highByte (w : Word) : Byte := w.extractLsb' 8 8

/-- The byte of a word that lies at the higher address (20_memory.md R52). -/
def lowByte (w : Word) : Byte := w.extractLsb' 0 8

/-- `{hi, lo}`: the word of two bytes in memory order (20_memory.md R52). -/
def wordOfBytes (hi lo : Byte) : Word := hi ++ lo

/-- The words that match no row of the opcode map, listed as 30_encoding.md R76 lists them. -/
def unmatchedWord (w : Word) : Bool :=
  match (opField w).toNat with
  | 5 => nField w != 0x0
  | 8 => [0x8, 0x9, 0xA, 0xB, 0xC, 0xD, 0xF].contains (nField w)
  | 9 => nField w != 0x0
  | 14 => !([0x9E, 0xA1].contains (kkField w))
  | 15 => !([0x07, 0x0A, 0x15, 0x18, 0x1E, 0x29, 0x33, 0x55, 0x65].contains (kkField w))
  | _ => false

end Sys2Proof
end

