-- ==== Sys2Proof/Syntax.lean ====
section
/-! DEFINITION. The instructions: one constructor per row of spec/opcode_table.json, named after the
row's variant (30_encoding.md R75). An operand field of a constructor is a field of the row's format
(R72), also where the instruction ignores it (R78), so that no bit of a word is lost. -/

namespace Sys2Proof

inductive Instr where
  | cls00E0
  | ret00EE
  | sys0nnn (nnn : Addr12)
  | jp1nnn (nnn : Addr12)
  | call2nnn (nnn : Addr12)
  | se3xkk (x : Reg) (kk : Byte)
  | sne4xkk (x : Reg) (kk : Byte)
  | se5xy0 (x y : Reg)
  | ld6xkk (x : Reg) (kk : Byte)
  | add7xkk (x : Reg) (kk : Byte)
  | ld8xy0 (x y : Reg)
  | or8xy1 (x y : Reg)
  | and8xy2 (x y : Reg)
  | xor8xy3 (x y : Reg)
  | add8xy4 (x y : Reg)
  | sub8xy5 (x y : Reg)
  | shr8xy6 (x y : Reg)
  | subn8xy7 (x y : Reg)
  | shl8xyE (x y : Reg)
  | sne9xy0 (x y : Reg)
  | ldAnnn (nnn : Addr12)
  | jpBnnn (nnn : Addr12)
  | rndCxkk (x : Reg) (kk : Byte)
  | drwDxyn (x y : Reg) (n : Nibble)
  | skpEx9E (x : Reg)
  | sknpExA1 (x : Reg)
  | ldFx07 (x : Reg)
  | ldFx0A (x : Reg)
  | ldFx15 (x : Reg)
  | ldFx18 (x : Reg)
  | addFx1E (x : Reg)
  | ldFx29 (x : Reg)
  | ldFx33 (x : Reg)
  | ldFx55 (x : Reg)
  | ldFx65 (x : Reg)
  /-- The decoder's fallback; it carries the word it stands for (30_encoding.md R74, R92). -/
  | nop (w : Word)
  deriving DecidableEq, Repr

end Sys2Proof
end

