-- ==== Sys2Proof/Decode.lean ====
section
/-! DEFINITION. The opcode decoder (30_encoding.md R74 to R77), the encoder written from the same map, and
the map itself as rows of mask and match (R75), which the decoder is claimed equal to. -/

namespace Sys2Proof

/-- The words of class 8: the low nibble is the sub-opcode (R75 rows 11 to 19). -/
def decodeClass8 (w : Word) : Instr :=
  match (nField w).toNat with
  | 0x0 => .ld8xy0 (xField w) (yField w)
  | 0x1 => .or8xy1 (xField w) (yField w)
  | 0x2 => .and8xy2 (xField w) (yField w)
  | 0x3 => .xor8xy3 (xField w) (yField w)
  | 0x4 => .add8xy4 (xField w) (yField w)
  | 0x5 => .sub8xy5 (xField w) (yField w)
  | 0x6 => .shr8xy6 (xField w) (yField w)
  | 0x7 => .subn8xy7 (xField w) (yField w)
  | 0xE => .shl8xyE (xField w) (yField w)
  | _ => .nop w

/-- The words of class E: the low byte is the sub-opcode (R75 rows 25, 26). -/
def decodeClassE (w : Word) : Instr :=
  match (kkField w).toNat with
  | 0x9E => .skpEx9E (xField w)
  | 0xA1 => .sknpExA1 (xField w)
  | _ => .nop w

/-- The words of class F: the low byte is the sub-opcode (R75 rows 27 to 35). -/
def decodeClassF (w : Word) : Instr :=
  match (kkField w).toNat with
  | 0x07 => .ldFx07 (xField w)
  | 0x0A => .ldFx0A (xField w)
  | 0x15 => .ldFx15 (xField w)
  | 0x18 => .ldFx18 (xField w)
  | 0x1E => .addFx1E (xField w)
  | 0x29 => .ldFx29 (xField w)
  | 0x33 => .ldFx33 (xField w)
  | 0x55 => .ldFx55 (xField w)
  | 0x65 => .ldFx65 (xField w)
  | _ => .nop w

/-- The words of class 0: the exact rows `CLS` and `RET` win over `SYS` (R74). -/
def decodeClass0 (w : Word) : Instr :=
  if w = 0x00E0 then .cls00E0 else if w = 0x00EE then .ret00EE else .sys0nnn (nnnField w)

/-- Decoding: total on every word, reading nothing but the word (R74, R76). -/
def decodeWord (w : Word) : Instr :=
  match (opField w).toNat with
  | 0x0 => decodeClass0 w
  | 0x1 => .jp1nnn (nnnField w)
  | 0x2 => .call2nnn (nnnField w)
  | 0x3 => .se3xkk (xField w) (kkField w)
  | 0x4 => .sne4xkk (xField w) (kkField w)
  | 0x5 => if nField w = 0x0 then .se5xy0 (xField w) (yField w) else .nop w
  | 0x6 => .ld6xkk (xField w) (kkField w)
  | 0x7 => .add7xkk (xField w) (kkField w)
  | 0x8 => decodeClass8 w
  | 0x9 => if nField w = 0x0 then .sne9xy0 (xField w) (yField w) else .nop w
  | 0xA => .ldAnnn (nnnField w)
  | 0xB => .jpBnnn (nnnField w)
  | 0xC => .rndCxkk (xField w) (kkField w)
  | 0xD => .drwDxyn (xField w) (yField w) (nField w)
  | 0xE => decodeClassE w
  | 0xF => decodeClassF w
  | _ => .nop w

/-- Why a byte sequence is no instruction: the one reason is that a word needs two bytes (R70). -/
inductive DecodeError where
  /-- Fewer than two bytes are left. -/
  | truncated
  deriving DecidableEq, Repr

/-- Decode the instruction at the head of a byte sequence and give the bytes after it; the first byte is
the high byte of the word (R70; 20_memory.md R52). -/
def decodeBytes : List Byte → Except DecodeError (Instr × List Byte)
  | hi :: lo :: rest => .ok (decodeWord (wordOfBytes hi lo), rest)
  | [_] => .error .truncated
  | [] => .error .truncated

/-- The word of an instruction, from the patterns of R75. -/
def encode : Instr → Word
  | .cls00E0 => 0x00E0
  | .ret00EE => 0x00EE
  | .sys0nnn nnn => wordNNN 0x0 nnn
  | .jp1nnn nnn => wordNNN 0x1 nnn
  | .call2nnn nnn => wordNNN 0x2 nnn
  | .se3xkk x kk => wordXKK 0x3 x kk
  | .sne4xkk x kk => wordXKK 0x4 x kk
  | .se5xy0 x y => wordXYN 0x5 x y 0x0
  | .ld6xkk x kk => wordXKK 0x6 x kk
  | .add7xkk x kk => wordXKK 0x7 x kk
  | .ld8xy0 x y => wordXYN 0x8 x y 0x0
  | .or8xy1 x y => wordXYN 0x8 x y 0x1
  | .and8xy2 x y => wordXYN 0x8 x y 0x2
  | .xor8xy3 x y => wordXYN 0x8 x y 0x3
  | .add8xy4 x y => wordXYN 0x8 x y 0x4
  | .sub8xy5 x y => wordXYN 0x8 x y 0x5
  | .shr8xy6 x y => wordXYN 0x8 x y 0x6
  | .subn8xy7 x y => wordXYN 0x8 x y 0x7
  | .shl8xyE x y => wordXYN 0x8 x y 0xE
  | .sne9xy0 x y => wordXYN 0x9 x y 0x0
  | .ldAnnn nnn => wordNNN 0xA nnn
  | .jpBnnn nnn => wordNNN 0xB nnn
  | .rndCxkk x kk => wordXKK 0xC x kk
  | .drwDxyn x y n => wordXYN 0xD x y n
  | .skpEx9E x => wordXKK 0xE x 0x9E
  | .sknpExA1 x => wordXKK 0xE x 0xA1
  | .ldFx07 x => wordXKK 0xF x 0x07
  | .ldFx0A x => wordXKK 0xF x 0x0A
  | .ldFx15 x => wordXKK 0xF x 0x15
  | .ldFx18 x => wordXKK 0xF x 0x18
  | .addFx1E x => wordXKK 0xF x 0x1E
  | .ldFx29 x => wordXKK 0xF x 0x29
  | .ldFx33 x => wordXKK 0xF x 0x33
  | .ldFx55 x => wordXKK 0xF x 0x55
  | .ldFx65 x => wordXKK 0xF x 0x65
  | .nop w => w

/-- The bytes of an instruction as memory holds them, lower address first (20_memory.md R52). -/
def encodeBytes (i : Instr) : List Byte := [highByte (encode i), lowByte (encode i)]

/-- One row of the opcode map (R75): a word `w` selects it if `w &&& mask = bits`. -/
structure OpcodeRow where
  mask : Word
  bits : Word
  build : Word → Instr

/-- The rows of R75 with priority 0: tried first (R74). -/
def exactRows : List OpcodeRow :=
  [⟨0xFFFF, 0x00E0, fun _ => .cls00E0⟩, ⟨0xFFFF, 0x00EE, fun _ => .ret00EE⟩]

/-- The rows of R75 with mask `F000`. -/
def classRows : List OpcodeRow :=
  [⟨0xF000, 0x0000, fun w => .sys0nnn (nnnField w)⟩, ⟨0xF000, 0x1000, fun w => .jp1nnn (nnnField w)⟩,
   ⟨0xF000, 0x2000, fun w => .call2nnn (nnnField w)⟩,
   ⟨0xF000, 0x3000, fun w => .se3xkk (xField w) (kkField w)⟩,
   ⟨0xF000, 0x4000, fun w => .sne4xkk (xField w) (kkField w)⟩,
   ⟨0xF000, 0x6000, fun w => .ld6xkk (xField w) (kkField w)⟩,
   ⟨0xF000, 0x7000, fun w => .add7xkk (xField w) (kkField w)⟩,
   ⟨0xF000, 0xA000, fun w => .ldAnnn (nnnField w)⟩, ⟨0xF000, 0xB000, fun w => .jpBnnn (nnnField w)⟩,
   ⟨0xF000, 0xC000, fun w => .rndCxkk (xField w) (kkField w)⟩,
   ⟨0xF000, 0xD000, fun w => .drwDxyn (xField w) (yField w) (nField w)⟩]

/-- The rows of R75 with mask `F00F` (format `XY`). -/
def xyRows : List OpcodeRow :=
  [⟨0xF00F, 0x5000, fun w => .se5xy0 (xField w) (yField w)⟩,
   ⟨0xF00F, 0x8000, fun w => .ld8xy0 (xField w) (yField w)⟩,
   ⟨0xF00F, 0x8001, fun w => .or8xy1 (xField w) (yField w)⟩,
   ⟨0xF00F, 0x8002, fun w => .and8xy2 (xField w) (yField w)⟩,
   ⟨0xF00F, 0x8003, fun w => .xor8xy3 (xField w) (yField w)⟩,
   ⟨0xF00F, 0x8004, fun w => .add8xy4 (xField w) (yField w)⟩,
   ⟨0xF00F, 0x8005, fun w => .sub8xy5 (xField w) (yField w)⟩,
   ⟨0xF00F, 0x8006, fun w => .shr8xy6 (xField w) (yField w)⟩,
   ⟨0xF00F, 0x8007, fun w => .subn8xy7 (xField w) (yField w)⟩,
   ⟨0xF00F, 0x800E, fun w => .shl8xyE (xField w) (yField w)⟩,
   ⟨0xF00F, 0x9000, fun w => .sne9xy0 (xField w) (yField w)⟩]

/-- The rows of R75 with mask `F0FF` (format `X`). -/
def xRows : List OpcodeRow :=
  [⟨0xF0FF, 0xE09E, fun w => .skpEx9E (xField w)⟩, ⟨0xF0FF, 0xE0A1, fun w => .sknpExA1 (xField w)⟩,
   ⟨0xF0FF, 0xF007, fun w => .ldFx07 (xField w)⟩, ⟨0xF0FF, 0xF00A, fun w => .ldFx0A (xField w)⟩,
   ⟨0xF0FF, 0xF015, fun w => .ldFx15 (xField w)⟩, ⟨0xF0FF, 0xF018, fun w => .ldFx18 (xField w)⟩,
   ⟨0xF0FF, 0xF01E, fun w => .addFx1E (xField w)⟩, ⟨0xF0FF, 0xF029, fun w => .ldFx29 (xField w)⟩,
   ⟨0xF0FF, 0xF033, fun w => .ldFx33 (xField w)⟩, ⟨0xF0FF, 0xF055, fun w => .ldFx55 (xField w)⟩,
   ⟨0xF0FF, 0xF065, fun w => .ldFx65 (xField w)⟩]

/-- The 35 rows of R75, highest priority first; what no row takes is the `NOP` fallback (R74). -/
def opcodeMap : List OpcodeRow := exactRows ++ classRows ++ xyRows ++ xRows

/-- `w` selects the row (R74). -/
def OpcodeRow.selectedBy (r : OpcodeRow) (w : Word) : Bool := w &&& r.mask == r.bits

/-- Decoding by the rows of the opcode map, the first selected row winning (R74). -/
def decodeByMap (w : Word) : Instr :=
  match opcodeMap.find? (fun r => r.selectedBy w) with
  | some r => r.build w
  | none => .nop w

/-- What the decoder reads from the word whose bits, as spec/opcode_table.json numbers them, are the low
`nbits` bits of `w`: the word is laid out as two bytes, high byte first, and given to `decodeBytes`
(20_memory.md R52). An instruction is one word, so every bit above bit 15 belongs to a later word. -/
def decodeTableWord (nbits w : Nat) : Option Instr :=
  match decodeBytes [highByte (BitVec.ofNat 16 (w % 2 ^ nbits)), lowByte (BitVec.ofNat 16 (w % 2 ^ nbits))] with
  | .ok (i, _) => some i
  | .error _ => none

end Sys2Proof
end

