-- ==== Sys2Proof/Config.lean ====
section
/-! DEFINITION. The fixed sizes (00_scope.md R4), the configuration parameters (R5) and the one free
value, the random byte (44_timer_keypad_random.md R168). -/

namespace Sys2Proof

/-- Bytes of memory (R4). -/
def memSize : Nat := 4096

/-- Address of the glyph table (R4). -/
def glyphBase : Nat := 0x050

/-- Length of the glyph table (R4). -/
def glyphSize : Nat := 80

/-- Address of the program, the reset value of `PC` (R4, 10_state.md R33). -/
def programBase : Nat := 0x200

/-- The longest program image (R4). -/
def maxProgram : Nat := 3584

/-- Columns of the display (45_display.md R180). -/
def displayWidth : Nat := 64

/-- Rows of the display (45_display.md R180). -/
def displayHeight : Nat := 32

/-- `SHR_FLAG_MODE` (R5; 41_alu.md R107). -/
inductive ShrFlagMode where
  | lowBit
  | legacyValue
  deriving DecidableEq, Repr

/-- `REG_RANGE_MODE` (R5; 43_load_index_memory.md R146). -/
inductive RegRangeMode where
  | exclusive
  | inclusive
  deriving DecidableEq, Repr

/-- `DRAW_EDGE_MODE` (R5; 45_display.md R184). -/
inductive DrawEdgeMode where
  | wrap
  | clamp
  deriving DecidableEq, Repr

/-- The configuration parameters that a step depends on: fixed straps, constant over a run and invisible
to the program (R5; 10_state.md R31). `COLOR_ON` and `COLOR_OFF` are arguments of the one operation that
uses them, the host's frame-buffer read (Machine/HostOps.lean). -/
structure Straps where
  shrFlag : ShrFlagMode
  regRange : RegRangeMode
  drawEdge : DrawEdgeMode
  /-- `GLYPH[0..79]` (10_state.md R35). -/
  glyph : Vector Byte 80
  deriving DecidableEq, Repr

/-- The random byte `rnd` of the `n`-th draw: "any value 0 to 255, under no law" (R168). It has no body:
nothing can be proved of its values (log 3). -/
opaque Config.rndByte : Nat → Byte

end Sys2Proof
end

