-- ==== Sys2Proof/Machine/Straps.lean ====
section
/-! DEFINITION. The default configuration (00_scope.md R5; 10_state.md R35). -/

namespace Sys2Proof

/-- The default of `GLYPH`: the font of 10_state.md R35, sixteen digits of five rows (PRESUMED, log 2). -/
def defaultGlyph : Vector Byte 80 := #v[
  0xF0, 0x90, 0x90, 0x90, 0xF0,  0x20, 0x60, 0x20, 0x20, 0x70,
  0xF0, 0x10, 0xF0, 0x80, 0xF0,  0xF0, 0x10, 0xF0, 0x10, 0xF0,
  0x90, 0x90, 0xF0, 0x10, 0x10,  0xF0, 0x80, 0xF0, 0x10, 0xF0,
  0xF0, 0x80, 0xF0, 0x90, 0xF0,  0xF0, 0x10, 0x20, 0x40, 0x40,
  0xF0, 0x90, 0xF0, 0x90, 0xF0,  0xF0, 0x90, 0xF0, 0x10, 0xF0,
  0xF0, 0x90, 0xF0, 0x90, 0x90,  0xE0, 0x90, 0xE0, 0x90, 0xE0,
  0xF0, 0x80, 0x80, 0x80, 0xF0,  0xE0, 0x90, 0x90, 0x90, 0xE0,
  0xF0, 0x80, 0xF0, 0x80, 0xF0,  0xF0, 0x80, 0xF0, 0x80, 0x80]

/-- The configuration `State.reset` stands in. `WRAP` is the spec's default (R5) and the glyphs are
the spec's default (R35); for the other two the spec gives both values and no default (92_eei_decisions.md
D11, D14): DESIGN CHOICE, the values of the conventions paragraph of 95_test_vectors.md (log 1). -/
def defaultStraps : Straps :=
  { shrFlag := .lowBit, regRange := .inclusive, drawEdge := .wrap, glyph := defaultGlyph }

end Sys2Proof
end

