-- ==== Sys2Proof/Machine/State.lean ====
section
/-! DEFINITION. The state of the machine (10_state.md), its reset value, and the reasons a transition can
stop. -/

namespace Sys2Proof.Machine

/-- The faults of the machine (60_exceptions.md R200), the values of the latch `FAULT` that are not
`None` (10_state.md R30). SAFE. A fault is TAKEN: the step that raises one answers the NEXT state in which
the latch holds it (R204), and a halted machine's step answers the same state (R205), so no step answers
`Host.Outcome.fault` (log 4). -/
inductive Fault where
  /-- Raised by `CALL` with `SP = 16` and by `RET` with `SP = 0` (R201). -/
  | stackFault
  /-- Raised by the fetch, `LD B`, `LD [I]`, `LD Vx, [I]` and `DRW` at an address of 4096 or more (R202). -/
  | addressOutOfRange
  deriving DecidableEq, Repr

/-- The reasons a transition has no meaning. SAFE: a refusal proves nothing about the hardware. -/
inductive Refusal where
  /-- Raised by an arm of `exec` whose instruction has no meaning yet; no arm does. -/
  | notModelled (mnemonic : String)
  /-- Raised by the host operation `Reset` for an image over 3584 bytes, "outside the contract and has no
  meaning in the model (refused)" (70_reset_and_hazards.md R231). No step raises it. -/
  | programTooLong
  /-- Raised by the host operations `KeySet` and `KeyClear` for `k > 15`, "outside the contract and has no
  meaning" (44_timer_keypad_random.md R170). No step raises it. -/
  | keyIndexOutOfRange
  deriving DecidableEq, Repr

/-- Memory: pairs of address and byte, addresses strictly rising, no byte equal to the reset byte of its
address, which is what an unlisted address reads as (log 8). -/
abbrev Memory := List Host.Cell

/-- The whole state (10_state.md R31): the eleven items of its summary table, then two fields of the
model's own. -/
structure State where
  /-- `V[0..15]` (R20). -/
  v : Vector Byte 16
  /-- `I` (R23). -/
  idx : Word
  /-- `PC` (R24). -/
  pc : Word
  /-- `STACK[0..15]` (R25). -/
  stack : Vector Word 16
  /-- `SP`, 0 to 16 (R25). -/
  sp : Fin 17
  /-- `DT` (R26). -/
  dt : Byte
  /-- `ST` (R26). -/
  st : Byte
  /-- `KEY[0..15]`, true = pressed (R27). -/
  key : Vector Bool 16
  /-- `FB[0..2047]`, bit `i` = cell `i` (R28). -/
  fb : BitVec 2048
  /-- `MEM[0..4095]` (R29). -/
  mem : Memory
  /-- `FAULT`, `none` = `None` (R30). -/
  fault : Option Fault
  /-- The configuration parameters (00_scope.md R5). The model's own field: no transition changes it (log 1). -/
  straps : Straps
  /-- How many random bytes have been drawn. The model's own field (log 3). -/
  draws : Nat
  deriving DecidableEq, Repr

/-- What a transition answers. -/
abbrev Result := Host.Outcome State Fault Refusal

/-- The state after `Reset` with the empty program, in the default configuration (10_state.md R33 to R37).
Nothing is listed in memory, so every byte is its reset byte (R34). -/
def State.reset : State :=
  { v := Vector.replicate 16 0
    idx := 0
    pc := 0x200
    stack := Vector.replicate 16 0
    sp := 0
    dt := 0
    st := 0
    key := Vector.replicate 16 false
    fb := 0
    mem := []
    fault := none
    straps := defaultStraps
    draws := 0 }

end Sys2Proof.Machine
end

