-- ==== Sys2Proof/Machine/Ops.lean ====
section
/-! DEFINITION. The named operations over registers, program counter, stack, timers and memory, and the
one operation that takes a fault. -/

namespace Sys2Proof.Machine

/-! ### Registers -/

/-- `V[x]` (00_scope.md R9). -/
def State.reg (s : State) (x : Reg) : Byte := s.v[x.val]'x.isLt

/-- `V[x] <- b`: every register is written, none is hardwired (10_state.md R20). -/
def State.setReg (s : State) (x : Reg) (b : Byte) : State := { s with v := s.v.set x.val b x.isLt }

/-- `I <- w` (10_state.md R23). -/
def State.setIdx (s : State) (w : Word) : State := { s with idx := w }

/-- `PC <- w` (10_state.md R24): any value is accepted (42_control_flow.md R120). -/
def State.setPc (s : State) (w : Word) : State := { s with pc := w }

/-- `DT <- b` (10_state.md R26). -/
def State.setDt (s : State) (b : Byte) : State := { s with dt := b }

/-- `ST <- b` (10_state.md R26). -/
def State.setSt (s : State) (b : Byte) : State := { s with st := b }

/-- All of `FB` at once (10_state.md R28). -/
def State.setFb (s : State) (fb : BitVec 2048) : State := { s with fb := fb }

/-- `FB[i]` (10_state.md R28). -/
def State.cell (s : State) (i : Nat) : Bool := s.fb.getLsbD i

/-- One random byte has been drawn (44_timer_keypad_random.md R168; log 3). -/
def State.countDraw (s : State) : State := { s with draws := s.draws + 1 }

/-- `V[i], V[i+1], … <- bs`, ascending (43_load_index_memory.md R148). -/
def State.setRegsFrom (s : State) (i : Nat) : List Byte → State
  | [] => s
  | b :: bs => State.setRegsFrom (if h : i < 16 then s.setReg ⟨i, h⟩ b else s) (i + 1) bs

/-! ### Program counter -/

/-- `PC <- PC + 2`, one instruction width: the engine's advance (40_engine_step.md R93) and the skip of a
conditional instruction (42_control_flow.md R120). The sum is taken at the register's width; in no state
a run reaches does it wrap (10_state.md R38; log 17). -/
def State.advance (s : State) : State := s.setPc (s.pc + 2)

/-- `PC <- PC - 2`, back to the instruction being executed (44_timer_keypad_random.md R164). -/
def State.rewind (s : State) : State := s.setPc (s.pc - 2)

/-- A conditional skip (42_control_flow.md R120). -/
def State.skipIf (s : State) (c : Bool) : State := if c then s.advance else s

/-! ### Faults -/

/-- `FAULT <- f` and nothing else (60_exceptions.md R204). -/
def State.latchFault (s : State) (f : Fault) : State := { s with fault := some f }

/-- Taking a fault while an instruction executes: the state is the one before the step, but for `FAULT`
(60_exceptions.md R204, R206). `s` is the state at the start of the execute phase, which differs from the
one before the step by the advance of `PC` only (40_engine_step.md R90), so rewinding `PC` restores it
(log 5). There is no return from a fault (R206): `Reset` is the way out (HostOps.lean). -/
def State.takeFault (s : State) (f : Fault) : State := s.rewind.latchFault f

/-- The end of an instruction that may `raise` (00_scope.md R9): its result, or the fault taken from the
state it started in, every write it made discarded. -/
def settle (s : State) (r : Except Fault State) : Result :=
  .next (match r with
    | .ok t => t
    | .error f => s.takeFault f)

/-! ### Memory -/

/-- The reset byte of an address: the glyph table at `0x050` to `0x09F`, zero elsewhere (10_state.md R34).
It is also what an address that no entry of memory names reads as (log 8). -/
def resetByte (glyph : Vector Byte 80) (a : Nat) : Byte :=
  if h : glyphBase ≤ a ∧ a < glyphBase + glyphSize then
    glyph[a - glyphBase]'(by have := h.2; simp only [glyphBase, glyphSize] at *; omega)
  else 0

/-- The byte at an address over a given reset contents. -/
def Memory.get (base : Nat → Byte) : Memory → Nat → Byte
  | [], a => base a
  | (b, u) :: rest, a => if a = b then u else Memory.get base rest a

/-- List an entry at its place, replacing an entry of the same address. -/
def Memory.insert : Memory → Nat → Byte → Memory
  | [], a, u => [(a, u)]
  | (b, w) :: rest, a, u =>
    if a < b then (a, u) :: (b, w) :: rest
    else if a = b then (a, u) :: rest
    else (b, w) :: Memory.insert rest a u

/-- Store a byte, keeping the canonical form: a byte equal to the reset byte is not listed. -/
def Memory.put (base : Nat → Byte) (m : Memory) (a : Nat) (u : Byte) : Memory :=
  if u = base a then m.filter (fun c => c.1 != a) else Memory.insert m a u

/-- The canonical form from address `lo` up. -/
def Memory.wfFrom (base : Nat → Byte) : Nat → Memory → Bool
  | _, [] => true
  | lo, (a, u) :: rest =>
    decide (lo ≤ a) && decide (a < memSize) && (u != base a) && Memory.wfFrom base (a + 1) rest

/-- The canonical form: addresses strictly rising and inside memory, no entry at its reset byte. -/
def Memory.wf (base : Nat → Byte) (m : Memory) : Bool := Memory.wfFrom base 0 m

/-- The memory whose only changes from the reset contents are these bytes from address `a` up. -/
def Memory.ofBytes (base : Nat → Byte) (a : Nat) : List Byte → Memory
  | [] => []
  | b :: bs =>
    if b = base a then Memory.ofBytes base (a + 1) bs else (a, b) :: Memory.ofBytes base (a + 1) bs

/-- The reset contents of this machine's memory. -/
def State.base (s : State) : Nat → Byte := resetByte s.straps.glyph

/-- `MEM[a]`. -/
def State.byteAt (s : State) (a : Nat) : Byte := s.mem.get s.base a

/-- `MEM[a] <- u`. -/
def State.putByte (s : State) (a : Nat) (u : Byte) : State := { s with mem := s.mem.put s.base a u }

/-- The state's memory is in its canonical form. -/
def State.memWf (s : State) : Bool := s.mem.wf s.base

/-- `MemRead(a, 1)` (00_scope.md R9): the address is an integer, not wrapped (20_memory.md R55). -/
def State.memRead (s : State) (a : Nat) : Except Fault Byte :=
  if a < memSize then .ok (s.byteAt a) else .error .addressOutOfRange

/-- `MemWrite(a, 1, u)` (00_scope.md R9; 20_memory.md R55): no address is write-protected (R50). -/
def State.memWrite (s : State) (a : Nat) (u : Byte) : Except Fault State :=
  if a < memSize then .ok (s.putByte a u) else .error .addressOutOfRange

/-- The `n` bytes at `a`, `a+1`, …, read in ascending order; the first address outside memory faults. -/
def State.readBytes (s : State) (a : Nat) : Nat → Except Fault (List Byte)
  | 0 => .ok []
  | n + 1 =>
    match s.memRead a with
    | .error f => .error f
    | .ok b =>
      match s.readBytes (a + 1) n with
      | .error f => .error f
      | .ok bs => .ok (b :: bs)

/-- Bytes stored at `a`, `a+1`, … in ascending order; the first address outside memory faults. -/
def State.writeBytes (s : State) (a : Nat) : List Byte → Except Fault State
  | [] => .ok s
  | b :: bs =>
    match s.memWrite a b with
    | .error f => .error f
    | .ok t => t.writeBytes (a + 1) bs

/-- `Fetch(PC)`: two byte reads, big-endian, at any parity (40_engine_step.md R91). -/
def fetch (s : State) : Except Fault Word :=
  match s.memRead s.pc.toNat with
  | .error f => .error f
  | .ok hi =>
    match s.memRead (s.pc.toNat + 1) with
    | .error f => .error f
    | .ok lo => .ok (wordOfBytes hi lo)

/-- The two bytes of a word stored at `a` and `a+1`, high byte first (20_memory.md R52). -/
def State.placeWord (s : State) (a : Nat) (w : Word) : State :=
  (s.putByte a (highByte w)).putByte (a + 1) (lowByte w)

/-! ### Call stack -/

/-- `STACK[SP] <- PC; SP <- SP + 1`, or `StackFault` when all 16 slots are occupied (10_state.md R25;
42_control_flow.md R122). -/
def State.pushPc (s : State) : Except Fault State :=
  if h : s.sp.val < 16 then
    .ok { s with stack := s.stack.set s.sp.val s.pc h, sp := ⟨s.sp.val + 1, by omega⟩ }
  else .error .stackFault

/-- `SP <- SP - 1; PC <- STACK[SP]`, or `StackFault` when no slot is occupied; the popped slot keeps its
value (10_state.md R25; 42_control_flow.md R123). -/
def State.popPc (s : State) : Except Fault State :=
  if h : 0 < s.sp.val then
    .ok { s with pc := s.stack[s.sp.val - 1]'(by omega), sp := ⟨s.sp.val - 1, by omega⟩ }
  else .error .stackFault

/-! ### Timers -/

/-- One tick of one timer: down by one, clamped at 0 (44_timer_keypad_random.md R160). -/
def tickByte (b : Byte) : Byte := if b = 0 then 0 else b - 1

/-- `TimerTick()` (44_timer_keypad_random.md R160). -/
def State.tick (s : State) : State := { s with dt := tickByte s.dt, st := tickByte s.st }

/-- The end of a step: the timers tick, unless the step faulted (40_engine_step.md R90, R94;
60_exceptions.md R204). -/
def State.finish (s : State) : State :=
  match s.fault with
  | none => s.tick
  | some _ => s

end Sys2Proof.Machine
end

