-- ==== Sys2Proof/Machine/Operands.lean ====
section
/-! DEFINITION. What the instructions make of their operands: extensions, the glyph address, the key
index, the register range, the decimal digits, the lowest pressed key, the cells of a sprite. -/

namespace Sys2Proof.Machine

/-- `zext_16(nnn)` (30_encoding.md R73). -/
def addrWord (nnn : Addr12) : Word := nnn.setWidth 16

/-- `zext_16(a)` (00_scope.md R9). -/
def byteWord (a : Byte) : Word := a.setWidth 16

/-- `a[3:0]`, the part of a register that names a digit or a key (43_load_index_memory.md R144;
44_timer_keypad_random.md R165). -/
def lowNibble (a : Byte) : Nibble := a.extractLsb' 0 4

/-- `0x0050 + 5 * a[3:0]` (43_load_index_memory.md R144). -/
def glyphAddress (a : Byte) : Word := 0x0050 + 5 * (lowNibble a).setWidth 16

/-- `KEY[k]` for the key a register names (44_timer_keypad_random.md R165). -/
def State.keyOf (s : State) (a : Byte) : Bool := s.key[(lowNibble a).toNat]'(lowNibble a).isLt

/-- How many registers `LD [I], Vx` and `LD Vx, [I]` transfer (43_load_index_memory.md R146). -/
def regCount (mode : RegRangeMode) (x : Reg) : Nat :=
  match mode with
  | .exclusive => x.val
  | .inclusive => x.val + 1

/-- `V[0]`, …, `V[count-1]` (43_load_index_memory.md R147). -/
def State.firstRegs (s : State) (count : Nat) : List Byte := s.v.toList.take count

/-- Hundreds, tens and ones of a byte (43_load_index_memory.md R145). -/
def decimalDigits (a : Byte) : List Byte :=
  [BitVec.ofNat 8 (a.toNat / 100), BitVec.ofNat 8 (a.toNat / 10 % 10), BitVec.ofNat 8 (a.toNat % 10)]

/-- The least pressed key, if any is pressed: keys 0 to 15 scanned in ascending order
(44_timer_keypad_random.md R164). -/
def State.lowestKey (s : State) : Option Nat := (List.range 16).find? (fun k => s.key.toList.getD k false)

/-- `Cell(px, py)` (45_display.md R184). -/
def cellIndex (mode : DrawEdgeMode) (px py : Nat) : Nat :=
  match mode with
  | .wrap => py % displayHeight * displayWidth + px % displayWidth
  | .clamp => min (py * displayWidth + px) 2047

/-- The cells that the set bits of one sprite row fall on, left to right: the pixel at column offset `c`
is bit `7 - c` (45_display.md R182, R183). -/
def rowCells (mode : DrawEdgeMode) (x0 py : Nat) (row : Byte) : List Nat :=
  ((List.range 8).filter (fun c => row.getLsbD (7 - c))).map (fun c => cellIndex mode (x0 + c) py)

/-- The cells that the set bits of a sprite fall on, in the order they are toggled: rows ascending, and
columns ascending in a row (45_display.md R183). The first row lies at display row `py`. -/
def spriteCells (mode : DrawEdgeMode) (x0 : Nat) : Nat → List Byte → List Nat
  | _, [] => []
  | py, row :: rows => rowCells mode x0 py row ++ spriteCells mode x0 (py + 1) rows

end Sys2Proof.Machine
end

