-- ==== Sys2Proof/Machine/Flags.lean ====
section
/-! DEFINITION. The values the instructions give the flag register `VF`, and the order in which flag and
result are written (10_state.md R21, R22; 41_alu.md R110). -/

namespace Sys2Proof.Machine

/-- A flag: 1 or 0. -/
def flagByte (b : Bool) : Byte := if b then 1 else 0

/-- 1 iff the unsigned sum exceeds 255 (41_alu.md R105). -/
def carryFlag (a b : Byte) : Byte := flagByte (decide (255 < a.toNat + b.toNat))

/-- 1 iff minuend > subtrahend, strictly (41_alu.md R106, R108; 90_conflicts.md C13). -/
def greaterFlag (minuend subtrahend : Byte) : Byte :=
  flagByte (decide (subtrahend.toNat < minuend.toNat))

/-- The flag of `SHR`: the bit shifted out, or the whole byte (41_alu.md R107). -/
def shrFlagByte (mode : ShrFlagMode) (a : Byte) : Byte :=
  match mode with
  | .lowBit => flagByte (a.getLsbD 0)
  | .legacyValue => a

/-- The flag of `SHL`: the high bit before the shift (41_alu.md R109). -/
def shlFlagByte (a : Byte) : Byte := flagByte (a.getLsbD 7)

/-- `VF <- flag; V[x] <- result`, in that order: with `x = 15` the result stays (10_state.md R22). -/
def State.setFlagThenReg (s : State) (flag : Byte) (x : Reg) (result : Byte) : State :=
  (s.setReg regF flag).setReg x result

/-- One set sprite bit falls on cell `i`: a collision if the cell is on, then the cell is toggled
(45_display.md R183, R185). The pair is the display and whether a collision has happened. -/
def toggleCell (acc : BitVec 2048 × Bool) (i : Nat) : BitVec 2048 × Bool :=
  (acc.1 ^^^ (1#2048 <<< i), acc.2 || acc.1.getLsbD i)

/-- The set bits of a sprite applied one after another (45_display.md R183). -/
def drawCells (fb : BitVec 2048) (cells : List Nat) : BitVec 2048 × Bool :=
  cells.foldl toggleCell (fb, false)

end Sys2Proof.Machine
end

