-- ==== Sys2Proof/Machine/Alu.lean ====
section
/-! DEFINITION. Arithmetic, logic and shift instructions (41_alu.md). Register operands are read from `s`,
before any write (10_state.md R22). -/

namespace Sys2Proof.Machine

/-- `ADD Vx, kk` (R101): no flag. -/
def execAdd7xkk (x : Reg) (kk : Byte) (s : State) : Result := .next (s.setReg x (s.reg x + kk))

/-- `OR Vx, Vy` (R102): no flag. -/
def execOr8xy1 (x y : Reg) (s : State) : Result := .next (s.setReg x (s.reg x ||| s.reg y))

/-- `AND Vx, Vy` (R103): no flag. -/
def execAnd8xy2 (x y : Reg) (s : State) : Result := .next (s.setReg x (s.reg x &&& s.reg y))

/-- `XOR Vx, Vy` (R104): no flag. -/
def execXor8xy3 (x y : Reg) (s : State) : Result := .next (s.setReg x (s.reg x ^^^ s.reg y))

/-- `ADD Vx, Vy` (R105). -/
def execAdd8xy4 (x y : Reg) (s : State) : Result :=
  .next (s.setFlagThenReg (carryFlag (s.reg x) (s.reg y)) x (s.reg x + s.reg y))

/-- `SUB Vx, Vy` (R106): `V[x]` is the minuend. -/
def execSub8xy5 (x y : Reg) (s : State) : Result :=
  .next (s.setFlagThenReg (greaterFlag (s.reg x) (s.reg y)) x (s.reg x - s.reg y))

/-- `SHR Vx` (R107): the `y` field is ignored. -/
def execShr8xy6 (x _y : Reg) (s : State) : Result :=
  .next (s.setFlagThenReg (shrFlagByte s.straps.shrFlag (s.reg x)) x (s.reg x >>> 1))

/-- `SUBN Vx, Vy` (R108): `V[y]` is the minuend. -/
def execSubn8xy7 (x y : Reg) (s : State) : Result :=
  .next (s.setFlagThenReg (greaterFlag (s.reg y) (s.reg x)) x (s.reg y - s.reg x))

/-- `SHL Vx` (R109): the `y` field is ignored. -/
def execShl8xyE (x _y : Reg) (s : State) : Result :=
  .next (s.setFlagThenReg (shlFlagByte (s.reg x)) x (s.reg x <<< 1))

end Sys2Proof.Machine
end

