-- ==== Sys2Proof/Machine/Control.lean ====
section
/-! DEFINITION. Control transfer instructions (42_control_flow.md). `PC` of `s` has been advanced: it is the
address of the instruction plus 2 (40_engine_step.md R93). -/

namespace Sys2Proof.Machine

/-- `JP nnn` (R121). -/
def execJp1nnn (nnn : Addr12) (s : State) : Result := .next (s.setPc (addrWord nnn))

/-- `CALL nnn` (R122): push the advanced `PC`, then jump. -/
def execCall2nnn (nnn : Addr12) (s : State) : Result :=
  settle s (match s.pushPc with
    | .ok t => .ok (t.setPc (addrWord nnn))
    | .error f => .error f)

/-- `RET` (R123). -/
def execRet00EE (s : State) : Result := settle s s.popPc

/-- `JP V0, nnn` (R124): the sum is not masked. -/
def execJpBnnn (nnn : Addr12) (s : State) : Result := .next (s.setPc (addrWord nnn + byteWord (s.reg 0)))

/-- `SE Vx, kk` (R125). -/
def execSe3xkk (x : Reg) (kk : Byte) (s : State) : Result := .next (s.skipIf (s.reg x == kk))

/-- `SNE Vx, kk` (R126). -/
def execSne4xkk (x : Reg) (kk : Byte) (s : State) : Result := .next (s.skipIf (s.reg x != kk))

/-- `SE Vx, Vy` (R127). -/
def execSe5xy0 (x y : Reg) (s : State) : Result := .next (s.skipIf (s.reg x == s.reg y))

/-- `SNE Vx, Vy` (R128). -/
def execSne9xy0 (x y : Reg) (s : State) : Result := .next (s.skipIf (s.reg x != s.reg y))

end Sys2Proof.Machine
end

