-- ==== Sys2Proof/Machine/Display.lean ====
section
/-! DEFINITION. Display instructions (45_display.md). -/

namespace Sys2Proof.Machine

/-- `CLS` (R181). -/
def execCls00E0 (s : State) : Result := .next (s.setFb 0)

/-- The column a sprite starts at, `V[x] mod 64` (R183). -/
def State.drawColumn (s : State) (x : Reg) : Nat := (s.reg x).toNat % displayWidth

/-- The row a sprite starts at, `V[y] mod 32` (R183). -/
def State.drawRow (s : State) (y : Reg) : Nat := (s.reg y).toNat % displayHeight

/-- The state after the sprite's rows have been read: cells toggled, `VF` = collision (R183). The
coordinates are those of `s`, so the old `VF` where `x` or `y` is 15. -/
def State.drawSprite (s : State) (x y : Reg) (rows : List Byte) : State :=
  let drawn := drawCells s.fb (spriteCells s.straps.drawEdge (s.drawColumn x) (s.drawRow y) rows)
  (s.setFb drawn.1).setReg regF (flagByte drawn.2)

/-- `DRW Vx, Vy, n` (R183): all rows are read before anything is written. -/
def execDrwDxyn (x y : Reg) (n : Nibble) (s : State) : Result :=
  settle s (match s.readBytes s.idx.toNat n.toNat with
    | .ok rows => .ok (s.drawSprite x y rows)
    | .error f => .error f)

end Sys2Proof.Machine
end

