-- ==== Sys2Proof/Machine/Load.lean ====
section
/-! DEFINITION. Register loads, index register and memory instructions (43_load_index_memory.md). -/

namespace Sys2Proof.Machine

/-- `LD Vx, kk` (R140). -/
def execLd6xkk (x : Reg) (kk : Byte) (s : State) : Result := .next (s.setReg x kk)

/-- `LD Vx, Vy` (R141). -/
def execLd8xy0 (x y : Reg) (s : State) : Result := .next (s.setReg x (s.reg y))

/-- `LD I, nnn` (R142). -/
def execLdAnnn (nnn : Addr12) (s : State) : Result := .next (s.setIdx (addrWord nnn))

/-- `ADD I, Vx` (R143): modulo 65536, no flag, no fault. -/
def execAddFx1E (x : Reg) (s : State) : Result := .next (s.setIdx (s.idx + byteWord (s.reg x)))

/-- `LD F, Vx` (R144). -/
def execLdFx29 (x : Reg) (s : State) : Result := .next (s.setIdx (glyphAddress (s.reg x)))

/-- `LD B, Vx` (R145): three digits at `I`, `I+1`, `I+2`. -/
def execLdFx33 (x : Reg) (s : State) : Result :=
  settle s (s.writeBytes s.idx.toNat (decimalDigits (s.reg x)))

/-- `LD [I], Vx` (R146, R147). -/
def execLdFx55 (x : Reg) (s : State) : Result :=
  settle s (s.writeBytes s.idx.toNat (s.firstRegs (regCount s.straps.regRange x)))

/-- `LD Vx, [I]` (R146, R148). -/
def execLdFx65 (x : Reg) (s : State) : Result :=
  settle s (match s.readBytes s.idx.toNat (regCount s.straps.regRange x) with
    | .ok bs => .ok (s.setRegsFrom 0 bs)
    | .error f => .error f)

end Sys2Proof.Machine
end

