-- ==== Sys2Proof/Machine/NoOp.lean ====
section
/-! DEFINITION. The no-op variants (40_engine_step.md section 2). -/

namespace Sys2Proof.Machine

/-- `SYS nnn`: nothing; `nnn` is ignored (R96). -/
def execSys0nnn (_nnn : Addr12) (s : State) : Result := .next s

/-- `NOP w`: nothing; `w` is not used (R95). -/
def execNop (_w : Word) (s : State) : Result := .next s

end Sys2Proof.Machine
end

