-- ==== Sys2Proof/Machine/TimerKey.lean ====
section
/-! DEFINITION. Timer, keypad and random instructions (44_timer_keypad_random.md). -/

namespace Sys2Proof.Machine

/-- `LD Vx, DT` (R161): the value before this step's tick. -/
def execLdFx07 (x : Reg) (s : State) : Result := .next (s.setReg x s.dt)

/-- `LD DT, Vx` (R162): the tick of the same step follows. -/
def execLdFx15 (x : Reg) (s : State) : Result := .next (s.setDt (s.reg x))

/-- `LD ST, Vx` (R163): the tick of the same step follows. -/
def execLdFx18 (x : Reg) (s : State) : Result := .next (s.setSt (s.reg x))

/-- `LD Vx, K` (R164): the lowest pressed key, or the same instruction again. -/
def execLdFx0A (x : Reg) (s : State) : Result :=
  .next (match s.lowestKey with
    | some k => s.setReg x (BitVec.ofNat 8 k)
    | none => s.rewind)

/-- `SKP Vx` (R165, R166). -/
def execSkpEx9E (x : Reg) (s : State) : Result := .next (s.skipIf (s.keyOf (s.reg x)))

/-- `SKNP Vx` (R165, R167). -/
def execSknpExA1 (x : Reg) (s : State) : Result := .next (s.skipIf (!s.keyOf (s.reg x)))

/-- `RND Vx, kk` (R168): the byte of the next draw, a free value, masked with `kk` (log 3). -/
def execRndCxkk (x : Reg) (kk : Byte) (s : State) : Result :=
  .next ((s.setReg x (Config.rndByte s.draws &&& kk)).countDraw)

end Sys2Proof.Machine
end

