-- ==== Sys2Proof/Machine/Dispatch.lean ====
section
/-! DEFINITION. The instruction executor: one arm per variant (30_encoding.md R75). `s` is the state at the
start of the execute phase: `PC` has been advanced (40_engine_step.md R93). -/

namespace Sys2Proof.Machine

def exec (i : Instr) (s : State) : Host.Outcome State Fault Refusal :=
  match i with
  | .cls00E0 => Sys2Proof.Machine.execCls00E0 s
  | .ret00EE => Sys2Proof.Machine.execRet00EE s
  | .sys0nnn nnn => Sys2Proof.Machine.execSys0nnn nnn s
  | .jp1nnn nnn => Sys2Proof.Machine.execJp1nnn nnn s
  | .call2nnn nnn => Sys2Proof.Machine.execCall2nnn nnn s
  | .se3xkk x kk => Sys2Proof.Machine.execSe3xkk x kk s
  | .sne4xkk x kk => Sys2Proof.Machine.execSne4xkk x kk s
  | .se5xy0 x y => Sys2Proof.Machine.execSe5xy0 x y s
  | .ld6xkk x kk => Sys2Proof.Machine.execLd6xkk x kk s
  | .add7xkk x kk => Sys2Proof.Machine.execAdd7xkk x kk s
  | .ld8xy0 x y => Sys2Proof.Machine.execLd8xy0 x y s
  | .or8xy1 x y => Sys2Proof.Machine.execOr8xy1 x y s
  | .and8xy2 x y => Sys2Proof.Machine.execAnd8xy2 x y s
  | .xor8xy3 x y => Sys2Proof.Machine.execXor8xy3 x y s
  | .add8xy4 x y => Sys2Proof.Machine.execAdd8xy4 x y s
  | .sub8xy5 x y => Sys2Proof.Machine.execSub8xy5 x y s
  | .shr8xy6 x y => Sys2Proof.Machine.execShr8xy6 x y s
  | .subn8xy7 x y => Sys2Proof.Machine.execSubn8xy7 x y s
  | .shl8xyE x y => Sys2Proof.Machine.execShl8xyE x y s
  | .sne9xy0 x y => Sys2Proof.Machine.execSne9xy0 x y s
  | .ldAnnn nnn => Sys2Proof.Machine.execLdAnnn nnn s
  | .jpBnnn nnn => Sys2Proof.Machine.execJpBnnn nnn s
  | .rndCxkk x kk => Sys2Proof.Machine.execRndCxkk x kk s
  | .drwDxyn x y n => Sys2Proof.Machine.execDrwDxyn x y n s
  | .skpEx9E x => Sys2Proof.Machine.execSkpEx9E x s
  | .sknpExA1 x => Sys2Proof.Machine.execSknpExA1 x s
  | .ldFx07 x => Sys2Proof.Machine.execLdFx07 x s
  | .ldFx0A x => Sys2Proof.Machine.execLdFx0A x s
  | .ldFx15 x => Sys2Proof.Machine.execLdFx15 x s
  | .ldFx18 x => Sys2Proof.Machine.execLdFx18 x s
  | .addFx1E x => Sys2Proof.Machine.execAddFx1E x s
  | .ldFx29 x => Sys2Proof.Machine.execLdFx29 x s
  | .ldFx33 x => Sys2Proof.Machine.execLdFx33 x s
  | .ldFx55 x => Sys2Proof.Machine.execLdFx55 x s
  | .ldFx65 x => Sys2Proof.Machine.execLdFx65 x s
  | .nop w => Sys2Proof.Machine.execNop w s

end Sys2Proof.Machine
end

