-- ==== Sys2Proof/Machine/Engine.lean ====
section
/-! DEFINITION. The step sequence (40_engine_step.md R90). -/

namespace Sys2Proof.Machine

/-- The rest of a step once the instruction has executed: the end of the step, where there is a state. -/
def endStep : Result → Result
  | .next t => .next t.finish
  | .fault r => .fault r
  | .refused r => .refused r

/-- The execute phase: decode, advance `PC`, execute, end of step (R90, R92, R93). -/
def runWord (w : Word) (s : State) : Result := endStep (exec (decodeWord w) s.advance)

/-- `Step` (R90): a halted machine does nothing (60_exceptions.md R205); a fetch that faults changes only
`FAULT` (R204); else the fetched word runs. -/
def engineStep (s : State) : Result :=
  match s.fault with
  | some _ => .next s
  | none =>
    match fetch s with
    | .error f => .next (s.latchFault f)
    | .ok w => runWord w s

/-- Where the next fetch can read a word: `PC`, or the program start if a word at `PC` would reach past the
end of memory. -/
def State.fetchable (s : State) : State :=
  if s.pc.toNat + 1 < memSize then s else s.setPc 0x200

/-- A state whose next step fetches and runs the word `w`: `w` lies at `PC`, and the machine is not halted
(log 10). -/
def State.withWord (s : State) (w : Word) : State :=
  { s.fetchable.placeWord s.fetchable.pc.toNat w with fault := none }

end Sys2Proof.Machine
end

