-- ==== Sys2Proof/Machine/Step.lean ====
section
/-! DEFINITION. One step of the machine, and the placing of one instruction where it fetches next. -/

namespace Sys2Proof.Machine

/-- One `Step` (40_engine_step.md R90). -/
def step (s : State) : Host.Outcome State Fault Refusal := engineStep s

/-- `s` with the instruction whose bits, as spec/opcode_table.json numbers them, are the low `nbits` bits
of `w`, stored where the next step fetches (log 10). An instruction is one word of 16 bits. -/
def State.withFetchWord (s : State) (nbits w : Nat) : State := s.withWord (BitVec.ofNat 16 (w % 2 ^ nbits))

end Sys2Proof.Machine
end

