-- ==== Sys2Proof/Machine/HostOps.lean ====
section
/-! DEFINITION. The host's operations (00_scope.md R6), each one transition or one read between steps
(20_memory.md R59). They also work on a halted machine (60_exceptions.md R205). -/

namespace Sys2Proof.Machine

/-- The state after `Reset(program)` in a given configuration (70_reset_and_hazards.md R230): the reset
state (10_state.md R33 to R37) with the program from `0x200` on. `draws` counts on (log 19). -/
def State.resetWith (straps : Straps) (program : List Byte) (draws : Nat) : State :=
  { State.reset with
    mem := Memory.ofBytes (resetByte straps.glyph) programBase program
    straps := straps
    draws := draws }

/-- `Reset(program)` on a machine in any state, halted or not: nothing of the state is kept; the
configuration is the machine's, not the operation's (70_reset_and_hazards.md R230). A longer image is
refused (R231). -/
def hostReset (program : List Byte) (s : State) : Result :=
  if program.length ≤ maxProgram then .next (State.resetWith s.straps program s.draws)
  else .refused .programTooLong

/-- `KEY[k] <- b`. -/
def State.putKey (s : State) (k : Nat) (b : Bool) : Result :=
  if h : k < 16 then .next { s with key := s.key.set k b h } else .refused .keyIndexOutOfRange

/-- `KeySet(k)` (44_timer_keypad_random.md R170). -/
def keySet (k : Nat) (s : State) : Result := s.putKey k true

/-- `KeyClear(k)` (44_timer_keypad_random.md R170). -/
def keyClear (k : Nat) (s : State) : Result := s.putKey k false

/-- `ReadKeys()` (44_timer_keypad_random.md R171). -/
def readKeys (s : State) : Vector Bool 16 := s.key

/-- The numeric code of the latch (60_exceptions.md R203). -/
def faultCode : Option Fault → BitVec 2
  | none => 0
  | some .stackFault => 1
  | some .addressOutOfRange => 2

/-- The host's read of `FAULT` (60_exceptions.md R203). -/
def readFault (s : State) : BitVec 2 := faultCode s.fault

/-- The four bytes one cell is exported as (45_display.md R188). -/
def cellColor (colorOn colorOff : Vector Byte 4) (on : Bool) : List Byte :=
  if on then colorOn.toList else colorOff.toList

/-- `ReadFrameBuffer()` (45_display.md R188): the cells in index order. The two colours are parameters of
the model (00_scope.md R5; log 16). -/
def readFrameBuffer (colorOn colorOff : Vector Byte 4) (s : State) : List Byte :=
  (List.range 2048).flatMap (fun i => cellColor colorOn colorOff (s.cell i))

/-- The host's moves that change the state (00_scope.md R6). -/
inductive HostMove where
  | reset (program : List Byte)
  | keySet (k : Nat)
  | keyClear (k : Nat)
  deriving DecidableEq, Repr

/-- One host move (20_memory.md R59). -/
def hostMove (m : HostMove) (s : State) : Result :=
  match m with
  | .reset program => hostReset program s
  | .keySet k => keySet k s
  | .keyClear k => keyClear k s

end Sys2Proof.Machine
end

