-- ==== Sys2Proof/Safety.lean ====
section
/-! DEFINITION. The terms claims are stated in: what a state shows part by part, what a transition leaves
alone, the invariant of the machine, and the states a run can reach. -/

namespace Sys2Proof.Machine

/-- One observable part of the state: a register, a slot, a key, a cell or a byte by its number, or one of
the scalar registers (10_state.md, summary table). `draws` is the model's own counter (log 3). -/
inductive Part where
  | reg (x : Reg)
  | idx
  | pc
  | slot (k : Fin 16)
  | sp
  | dt
  | st
  | key (k : Fin 16)
  | cell (i : Nat)
  | byte (a : Nat)
  | fault
  | draws
  deriving DecidableEq, Repr

/-- What a part holds, as a number: the value of a register or byte, 0 or 1 for a key or a cell, the code
of the latch (60_exceptions.md R203). -/
def State.part (s : State) : Part → Nat
  | .reg x => (s.reg x).toNat
  | .idx => s.idx.toNat
  | .pc => s.pc.toNat
  | .slot k => s.stack[k.val].toNat
  | .sp => s.sp.val
  | .dt => s.dt.toNat
  | .st => s.st.toNat
  | .key k => s.key[k.val].toNat
  | .cell i => (s.cell i).toNat
  | .byte a => (s.byteAt a).toNat
  | .fault => (faultCode s.fault).toNat
  | .draws => s.draws

/-- The frame: between `s` and `t` no part changes that `changed` does not name, and the configuration is
the same. Every byte of memory is a part, so memory is compared by reading it. -/
def OnlyChanges (changed : Part → Prop) (s t : State) : Prop :=
  t.straps = s.straps ∧ ∀ p, ¬ changed p → t.part p = s.part p

/-- The machine is running: no fault is latched (00_scope.md R11). -/
def State.running (s : State) : Prop := s.fault = none

/-- A safe run never latches a fault: "every claim about a program should take `FAULT = None` at the end"
(60_exceptions.md R205). This is the state such a run is in. -/
def State.safe (s : State) : Prop := s.running

/-- A running machine whose next fetch is in range and reads the word `w` (40_engine_step.md R91). -/
def State.fetches (s : State) (w : Word) : Prop :=
  s.running ∧ s.pc.toNat ≤ 0xFFE ∧ wordOfBytes (s.byteAt s.pc.toNat) (s.byteAt (s.pc.toNat + 1)) = w

/-- The invariant of 10_state.md R38 (its clause (a), `SP <= 16`, is in the type of `sp`), with a
clause of the model's own: the canonical form of memory. -/
structure State.Inv (s : State) : Prop where
  /-- The model's own clause: the memory is in its canonical form (DESIGN CHOICE, log 8). -/
  memory : s.memWf = true
  /-- (b): `PC <= 0x10FE`. -/
  counter : s.pc.toNat ≤ 0x10FE
  /-- (c): every occupied slot holds a value in `0x002` to `0x1000`. -/
  slots : ∀ k : Fin 16, k.val < s.sp.val → 0x002 ≤ s.stack[k.val].toNat ∧ s.stack[k.val].toNat ≤ 0x1000

/-- The states a run can reach: any program in the contract, in any configuration, any interleaving of
steps and host moves (20_memory.md R59; 70_reset_and_hazards.md R231, R232). -/
inductive Reachable : State → Prop
  | start (straps : Straps) (program : List Byte) (draws : Nat) (fits : program.length ≤ maxProgram) :
      Reachable (State.resetWith straps program draws)
  | step {s t : State} (before : Reachable s) (moved : Sys2Proof.Machine.step s = .next t) : Reachable t
  | host {s t : State} (m : HostMove) (before : Reachable s) (moved : hostMove m s = .next t) : Reachable t

end Sys2Proof.Machine
end

