-- ==== Sys2Proof/WellFormed.lean ====
section
/-! DEFINITION. Which terms of `Instr` are instructions: the bounds of the operand fields are in their
types; two checks remain, both for the words another row takes first (30_encoding.md R74, R76, R77). -/

namespace Sys2Proof

/-- `00E0` and `00EE` are `CLS` and `RET`, never `SYS` (R74, R77). -/
def sysWellFormed (nnn : Addr12) : Bool := nnn != 0x0E0 && nnn != 0x0EE

/-- A well-formed instruction: the one its encoding stands for. -/
def Instr.wellFormed : Instr → Bool
  | .sys0nnn nnn => sysWellFormed nnn
  | .nop w => unmatchedWord w
  | .cls00E0 | .ret00EE | .jp1nnn _ | .call2nnn _ | .se3xkk _ _ | .sne4xkk _ _ | .se5xy0 _ _
  | .ld6xkk _ _ | .add7xkk _ _ | .ld8xy0 _ _ | .or8xy1 _ _ | .and8xy2 _ _ | .xor8xy3 _ _
  | .add8xy4 _ _ | .sub8xy5 _ _ | .shr8xy6 _ _ | .subn8xy7 _ _ | .shl8xyE _ _ | .sne9xy0 _ _
  | .ldAnnn _ | .jpBnnn _ | .rndCxkk _ _ | .drwDxyn _ _ _ | .skpEx9E _ | .sknpExA1 _
  | .ldFx07 _ | .ldFx0A _ | .ldFx15 _ | .ldFx18 _ | .addFx1E _ | .ldFx29 _ | .ldFx33 _
  | .ldFx55 _ | .ldFx65 _ => true

end Sys2Proof
end

