-- ==== Sys2Proof/Certificates/Slice0/Obligations.lean ====
section
/-! DEFINITION. The statements for the provers. "Rule" numbers are those of spec/; `exec` runs on a state whose
`PC` has been advanced (40_engine_step.md R93); `OnlyChanges` is the frame: every register, key, cell, stack
slot and byte of memory that it does not name reads as before. -/

open Sys2Proof Sys2Proof.Machine

/-! ### Reset and the host's operations -/

/-- R33: the values `Reset` leaves, from any state and for any program in the contract; the fixed reset state
has them too. -/
def Obligations.ResetClearsRegistersStackAndTimers : Prop :=
  ∀ (s : State) (program : List Byte), program.length ≤ maxProgram →
    ∃ t, hostReset program s = .next t ∧
      ∀ u, u = t ∨ u = State.reset →
        (∀ x, u.reg x = 0) ∧ u.idx = 0 ∧ u.pc = 0x200 ∧ (∀ k : Fin 16, u.stack[k.val] = 0) ∧ u.sp.val = 0 ∧
          u.dt = 0 ∧ u.st = 0

/-- R34, R36, R37, R230, R231: memory, display, keypad and latch after `Reset`; an image over 3584 bytes is
refused. The zero bytes, cells and keys and the refusal are the spec's own decisions D22, D23, D24; the
configuration is kept (log 1). -/
def Obligations.ResetFillsMemoryAndClearsDisplayKeypadLatch : Prop :=
  ∀ (s : State) (program : List Byte),
    (program.length ≤ maxProgram → ∃ t, hostReset program s = .next t ∧ t.straps = s.straps ∧
      (∀ i : Fin 80, t.byteAt (0x050 + i.val) = s.straps.glyph[i.val]) ∧
      (∀ i, ∀ h : i < program.length, t.byteAt (0x200 + i) = program[i]) ∧
      (∀ a, a < 0x050 ∨ (0x0A0 ≤ a ∧ a < 0x200) ∨ 0x200 + program.length ≤ a → t.byteAt a = 0) ∧
      (∀ i, t.cell i = false) ∧ (∀ k : Fin 16, t.key[k.val] = false) ∧ t.fault = none) ∧
    (maxProgram < program.length → hostReset program s = .refused .programTooLong)

/-- R170: `KeySet` and `KeyClear` write one key and nothing else, in any state (a halted one too); a key index
over 15 is refused (the spec's decision D30). R171: the keys read are those of the state. -/
def Obligations.KeySetAndKeyClearWriteOneKey : Prop :=
  (∀ (s : State) (k : Fin 16),
    (∃ t, keySet k.val s = .next t ∧ (readKeys t)[k.val] = true ∧ OnlyChanges (· = .key k) s t) ∧
    (∃ t, keyClear k.val s = .next t ∧ (readKeys t)[k.val] = false ∧ OnlyChanges (· = .key k) s t)) ∧
  (∀ (s : State) (k : Nat), 15 < k →
    keySet k s = .refused .keyIndexOutOfRange ∧ keyClear k s = .refused .keyIndexOutOfRange)

/-- R188: the frame-buffer read is 4 × 2048 bytes, cell `i` giving the four bytes of its colour at `4 i` on.
The two colours are parameters (the spec's decision D29, log 16). -/
def Obligations.FrameBufferReadGivesFourBytesPerCell : Prop :=
  ∀ (on off : Vector Byte 4) (s : State),
    (readFrameBuffer on off s).length = 4 * 2048 ∧
    ∀ (i : Fin 2048) (j : Fin 4),
      (readFrameBuffer on off s)[4 * i.val + j.val]? =
        some (if s.cell i.val then on[j.val] else off[j.val])

/-! ### Encoding and decoding -/

/-- R74, R75: decoding the encoding of a well-formed instruction gives it back, as a word and as bytes (the opcode
map rests in part on general knowledge, the spec's decisions D26 to D28). -/
def Obligations.DecodeOfEncodeIsTheInstruction : Prop :=
  ∀ (i : Instr), i.wellFormed = true →
    decodeWord (encode i) = i ∧ ∀ rest, decodeBytes (encodeBytes i ++ rest) = .ok (i, rest)

/-- R74: every word decodes, to a well-formed instruction whose encoding is that word: no bit is dropped (the
opcode map rests in part on general knowledge, the spec's decisions D26 to D28). -/
def Obligations.EncodeOfDecodeIsTheWord : Prop :=
  ∀ (w : Word), (decodeWord w).wellFormed = true ∧ encode (decodeWord w) = w

/-- R74, R75: the decoder selects by the masks and matches of the opcode map, exact rows first, and falls back to
`NOP` (the opcode map rests in part on general knowledge, the spec's decisions D26 to D28). -/
def Obligations.DecoderSelectsByMaskAndMatch : Prop :=
  ∀ (w : Word), decodeWord w = decodeByMap w

/-- R76, R77: the words that decode to the fallback are exactly those of the list, and the words of class 0 but
`00E0` and `00EE` are `SYS` (the opcode map rests in part on general knowledge, the spec's decisions D26 to D28). -/
def Obligations.FallbackAndSysWordsAreTheListedOnes : Prop :=
  ∀ (w : Word), (decodeWord w = .nop w ↔ unmatchedWord w = true) ∧
    ((∃ nnn, decodeWord w = .sys0nnn nnn) ↔ opField w = 0 ∧ w ≠ 0x00E0 ∧ w ≠ 0x00EE)

/-- R81: decoder check values: one word of each format, and the words R81 lists at the boundaries of classes 0, 5,
8, 9, E and F, the matching one beside the unmatched ones (the opcode map rests in part on general knowledge, the
spec's decisions D26 to D28). -/
def Obligations.DecoderCheckValues : Prop :=
  decodeWord 0x00E0 = .cls00E0 ∧ decodeWord 0x00EE = .ret00EE ∧ decodeWord 0x00E1 = .sys0nnn 0x0E1 ∧
  decodeWord 0x1234 = .jp1nnn 0x234 ∧ decodeWord 0x3A7F = .se3xkk 10 0x7F ∧
  decodeWord 0x5120 = .se5xy0 1 2 ∧ decodeWord 0x5121 = .nop 0x5121 ∧
  decodeWord 0x8126 = .shr8xy6 1 2 ∧ decodeWord 0x8127 = .subn8xy7 1 2 ∧ decodeWord 0x8128 = .nop 0x8128 ∧
  decodeWord 0x812D = .nop 0x812D ∧ decodeWord 0x812E = .shl8xyE 1 2 ∧ decodeWord 0x812F = .nop 0x812F ∧
  decodeWord 0x9120 = .sne9xy0 1 2 ∧ decodeWord 0x912F = .nop 0x912F ∧
  decodeWord 0xC10F = .rndCxkk 1 0x0F ∧ decodeWord 0xD125 = .drwDxyn 1 2 5 ∧
  decodeWord 0xE19E = .skpEx9E 1 ∧ decodeWord 0xE19F = .nop 0xE19F ∧ decodeWord 0xE1A1 = .sknpExA1 1 ∧
  decodeWord 0xE100 = .nop 0xE100 ∧
  decodeWord 0xF133 = .ldFx33 1 ∧ decodeWord 0xF165 = .ldFx65 1 ∧ decodeWord 0xF100 = .nop 0xF100 ∧
  decodeWord 0xF175 = .nop 0xF175 ∧ decodeWord 0xF185 = .nop 0xF185 ∧ decodeWord 0xFFFF = .nop 0xFFFF

/-! ### The step -/

/-- R90, R92, R93, R94: a step of a running machine whose fetch is in range executes the decoded instruction on
the advanced state, and then both timers go down by one unless it faulted. -/
def Obligations.StepRunsTheDecodedInstruction : Prop :=
  ∀ (s : State) (w : Word) (i : Instr), s.fetches w → decodeWord w = i →
    s.advance.pc = s.pc + 2 ∧ OnlyChanges (· = .pc) s s.advance ∧
    ∃ t, exec i s.advance = .next t ∧
      ∃ u, step s = .next u ∧
        (t.fault ≠ none → u = t) ∧
        (t.fault = none → u.dt.toNat = t.dt.toNat - 1 ∧ u.st.toNat = t.st.toNat - 1 ∧
          OnlyChanges (fun p => p = .dt ∨ p = .st) t u)

/-- R91: the fetch gives the big-endian word exactly when `PC <= 0xFFE`; else the step latches
`AddressOutOfRange` and changes nothing else (the spec's decisions D5, D7). -/
def Obligations.FetchReadsBigEndianWordOrFaults : Prop :=
  ∀ (s : State),
    (s.pc.toNat ≤ 0xFFE → ∃ w : Word, fetch s = .ok w ∧
      w.toNat = 256 * (s.byteAt s.pc.toNat).toNat + (s.byteAt (s.pc.toNat + 1)).toNat) ∧
    (s.running → 0xFFE < s.pc.toNat →
      ∃ t, step s = .next t ∧ t.fault = some .addressOutOfRange ∧ OnlyChanges (· = .fault) s t)

/-- R205, R170: a halted machine's step changes nothing; the latch is left by `Reset` only (the spec's decision
D3). -/
def Obligations.HaltedMachineIsFrozenUntilReset : Prop :=
  ∀ (s : State), ¬ s.running →
    step s = .next s ∧
    (∀ k t, (keySet k s = .next t ∨ keyClear k s = .next t) → t.fault = s.fault) ∧
    (∀ program t, hostReset program s = .next t → t.running)

/-- R90, R200: every step answers a next state; no step stops the model. -/
def Obligations.EveryStepAnswersNextState : Prop :=
  ∀ (s : State), ∃ t, step s = .next t

/-- R204: a step that faults changes the latch and nothing else: `PC`, registers, memory, display, stack and
timers are as before the step (the spec's decision D5). -/
def Obligations.FaultingStepChangesOnlyTheLatch : Prop :=
  ∀ (s t : State), s.running → step s = .next t → ¬ t.running → t = { s with fault := t.fault }

/-- R201: the causes of `StackFault`, all of them, and its code (the latch and its codes are the spec's decisions
D3, D4). -/
def Obligations.StackFaultOnFullCallOrEmptyReturnOnly : Prop :=
  faultCode (some .stackFault) = 1 ∧
  ∀ (s t : State), s.running → step s = .next t →
    (t.fault = some .stackFault ↔
      ∃ w, s.fetches w ∧
        ((∃ nnn, decodeWord w = .call2nnn nnn ∧ s.sp.val = 16) ∨ (decodeWord w = .ret00EE ∧ s.sp.val = 0)))

/-- R202: the causes of `AddressOutOfRange`, all of them, and its code (a fault rather than a wrap is the
spec's decision D6, D7). -/
def Obligations.AddressFaultOnAccessOutsideMemoryOnly : Prop :=
  faultCode (some .addressOutOfRange) = 2 ∧
  ∀ (s t : State), s.running → step s = .next t →
    (t.fault = some .addressOutOfRange ↔
      0xFFF ≤ s.pc.toNat ∨
      ∃ w, s.fetches w ∧
        ((∃ x, decodeWord w = .ldFx33 x ∧ 0xFFE ≤ s.idx.toNat) ∨
         (∃ x, (decodeWord w = .ldFx55 x ∨ decodeWord w = .ldFx65 x) ∧ 0 < regCount s.straps.regRange x ∧
            4096 ≤ s.idx.toNat + regCount s.straps.regRange x - 1) ∨
         (∃ x y n, decodeWord w = .drwDxyn x y n ∧ 0 < n.toNat ∧ 4096 ≤ s.idx.toNat + n.toNat - 1)))

/-- R94: the timers tick last, once in every step that does not fault, whatever instruction ran; `LD DT, Vx`
and `LD ST, Vx` leave one less than the register, and `LD Vx, DT` reads the timer before the tick. -/
def Obligations.TimersTickLastInEveryStep : Prop :=
  ∀ (s t : State) (w : Word), s.fetches w → step s = .next t → t.running →
    t.dt.toNat = (match decodeWord w with
      | .ldFx15 x => (s.reg x).toNat - 1
      | _ => s.dt.toNat - 1) ∧
    t.st.toNat = (match decodeWord w with
      | .ldFx18 x => (s.reg x).toNat - 1
      | _ => s.st.toNat - 1) ∧
    (∀ x, decodeWord w = .ldFx07 x → t.reg x = s.dt)

/-- R129: where `PC` is after a step that does not fault, for every instruction. -/
def Obligations.ProgramCounterAfterEveryStep : Prop :=
  ∀ (s t : State) (w : Word), s.fetches w → step s = .next t → t.running →
    t.pc.toNat = match decodeWord w with
      | .jp1nnn nnn | .call2nnn nnn => nnn.toNat
      | .jpBnnn nnn => nnn.toNat + (s.reg 0).toNat
      | .ret00EE => (s.stack.toList.getD (s.sp.val - 1) 0).toNat
      | .se3xkk x kk => s.pc.toNat + (if s.reg x = kk then 4 else 2)
      | .sne4xkk x kk => s.pc.toNat + (if s.reg x = kk then 2 else 4)
      | .se5xy0 x y => s.pc.toNat + (if s.reg x = s.reg y then 4 else 2)
      | .sne9xy0 x y => s.pc.toNat + (if s.reg x = s.reg y then 2 else 4)
      | .skpEx9E x => s.pc.toNat + (if s.key.toList.getD ((s.reg x).toNat % 16) false then 4 else 2)
      | .sknpExA1 x => s.pc.toNat + (if s.key.toList.getD ((s.reg x).toNat % 16) false then 2 else 4)
      | .ldFx0A _ => s.pc.toNat + (if true ∈ s.key.toList then 2 else 0)
      | _ => s.pc.toNat + 2

/-! ### Invariants -/

/-- R38, R33: the invariant holds right after `Reset`, whatever the program and the configuration: `PC <= 0x10FE`
and every occupied slot in `0x002` to `0x1000`; that memory is in its canonical form is a clause of the model's
own, its choice of log 8 (DESIGN CHOICE), and no part of the rules. -/
def Obligations.InvariantHoldsAfterReset : Prop :=
  State.reset.Inv ∧
  ∀ (straps : Straps) (program : List Byte) (draws : Nat), program.length ≤ maxProgram →
    (State.resetWith straps program draws).Inv

/-- R38: every step keeps the invariant, from every state that meets it: `PC <= 0x10FE` and every occupied slot in
`0x002` to `0x1000`; that memory is in its canonical form is a clause of the model's own, its choice of log 8
(DESIGN CHOICE), and no part of the rules. -/
def Obligations.EveryStepKeepsTheInvariant : Prop :=
  ∀ (s t : State), s.Inv → step s = .next t → t.Inv

/-- R38, R59: every host move keeps the invariant: `PC <= 0x10FE` and every occupied slot in `0x002` to `0x1000`;
that memory is in its canonical form is a clause of the model's own, its choice of log 8 (DESIGN CHOICE), and no
part of the rules. -/
def Obligations.EveryHostMoveKeepsTheInvariant : Prop :=
  ∀ (m : HostMove) (s t : State), s.Inv → hostMove m s = .next t → t.Inv

/-- R38: the invariant holds in every state that steps and host moves can reach from a reset, "for any program and
any host behaviour": `PC <= 0x10FE` and every occupied slot in `0x002` to `0x1000`; that memory is in its
canonical form is a clause of the model's own, its choice of log 8 (DESIGN CHOICE), and no part of the rules. That
host moves fall between steps only is the spec's decision D37, and the relation `Reachable` is the model's form of
it (log 11, DESIGN CHOICE). -/
def Obligations.ReachableStatesMeetTheInvariant : Prop :=
  ∀ (s : State), Reachable s → s.Inv

/-- R5, R31: no step and no host move changes the configuration. That it stands in the state is the model's
choice (log 1). -/
def Obligations.ConfigurationIsConstant : Prop :=
  (∀ (s t : State), step s = .next t → t.straps = s.straps) ∧
  (∀ (m : HostMove) (s t : State), hostMove m s = .next t → t.straps = s.straps)

/-! ### Who writes what -/

/-- R27: no step changes a key. -/
def Obligations.KeypadIsWrittenByTheHostOnly : Prop :=
  ∀ (s t : State), step s = .next t → t.key = s.key

/-- R28: only `CLS` and `DRW` change the display. -/
def Obligations.DisplayIsWrittenByClearAndDrawOnly : Prop :=
  ∀ (s t : State), step s = .next t → t.fb ≠ s.fb →
    ∃ w, s.fetches w ∧ (decodeWord w = .cls00E0 ∨ ∃ x y n, decodeWord w = .drwDxyn x y n)

/-- R54, R50: only `LD B, Vx` and `LD [I], Vx` change memory, and only inside their range of bytes at `I`. -/
def Obligations.MemoryIsWrittenByTwoStoresOnly : Prop :=
  ∀ (s t : State) (a : Nat), step s = .next t → t.byteAt a ≠ s.byteAt a →
    ∃ w x, s.fetches w ∧
      ((decodeWord w = .ldFx33 x ∧ s.idx.toNat ≤ a ∧ a ≤ s.idx.toNat + 2) ∨
       (decodeWord w = .ldFx55 x ∧ s.idx.toNat ≤ a ∧ a < s.idx.toNat + regCount s.straps.regRange x))

/-- R23, R25: only three instructions change `I`; only `CALL` and `RET` change `SP`, and only `CALL` a slot. -/
def Obligations.IndexAndStackWriters : Prop :=
  ∀ (s t : State), step s = .next t →
    (t.idx ≠ s.idx → ∃ w, s.fetches w ∧
      ((∃ nnn, decodeWord w = .ldAnnn nnn) ∨ (∃ x, decodeWord w = .ldFx29 x) ∨ (∃ x, decodeWord w = .addFx1E x))) ∧
    (t.sp ≠ s.sp → ∃ w, s.fetches w ∧ ((∃ nnn, decodeWord w = .call2nnn nnn) ∨ decodeWord w = .ret00EE)) ∧
    (t.stack ≠ s.stack → ∃ w nnn, s.fetches w ∧ decodeWord w = .call2nnn nnn)

/-- R21: an instruction that changes `VF` is one of the seven that write it as a flag, or has `VF` as its
destination register or inside its register range (that the logic instructions do not is the spec's decision
D18). -/
def Obligations.FlagRegisterWriters : Prop :=
  ∀ (i : Instr) (s t : State), exec i s = .next t → t.reg regF ≠ s.reg regF →
    (∃ x y, i = .add8xy4 x y ∨ i = .sub8xy5 x y ∨ i = .shr8xy6 x y ∨ i = .subn8xy7 x y ∨ i = .shl8xyE x y) ∨
    (∃ x y n, i = .drwDxyn x y n) ∨
    (∃ kk, i = .ld6xkk regF kk ∨ i = .add7xkk regF kk ∨ i = .rndCxkk regF kk) ∨
    (∃ y, i = .ld8xy0 regF y ∨ i = .or8xy1 regF y ∨ i = .and8xy2 regF y ∨ i = .xor8xy3 regF y) ∨
    i = .ldFx07 regF ∨ i = .ldFx0A regF ∨ (i = .ldFx65 regF ∧ s.straps.regRange = .inclusive)

/-- R168: "Only this instruction reads `rnd`": an instruction other than `RND` does the same whatever the number
of random bytes drawn before, and draws none (the counter is the model's own, log 3). -/
def Obligations.OnlyRndReadsTheRandomByte : Prop :=
  ∀ (i : Instr) (s t : State) (d : Nat), (∀ x kk, i ≠ .rndCxkk x kk) → exec i s = .next t →
    exec i { s with draws := d } = .next { t with draws := d }

/-! ### No-op, arithmetic, logic and shift instructions -/

/-- R95: a word that matches no row runs as a no-op: `PC` by 2, the timers tick, nothing else (which words match
no row rests on the spec's decisions D26, D27). -/
def Obligations.UnmatchedWordRunsAsNoOp : Prop :=
  (∀ (w : Word) (s : State), exec (.nop w) s = .next s) ∧
  ∀ (w : Word) (s : State), unmatchedWord w = true → s.fetches w →
    ∃ t, step s = .next t ∧ t.pc = s.pc + 2 ∧ t.dt.toNat = s.dt.toNat - 1 ∧ t.st.toNat = s.st.toNat - 1 ∧
      OnlyChanges (fun p => p = .pc ∨ p = .dt ∨ p = .st) s t

/-- R96: `SYS nnn` runs as a no-op, whatever `nnn` (the spec's decision D25). -/
def Obligations.SysRunsAsNoOp : Prop :=
  (∀ (nnn : Addr12) (s : State), exec (.sys0nnn nnn) s = .next s) ∧
  ∀ (w : Word) (s : State), opField w = 0 → w ≠ 0x00E0 → w ≠ 0x00EE → s.fetches w →
    ∃ t, step s = .next t ∧ t.pc = s.pc + 2 ∧ t.dt.toNat = s.dt.toNat - 1 ∧ t.st.toNat = s.st.toNat - 1 ∧
      OnlyChanges (fun p => p = .pc ∨ p = .dt ∨ p = .st) s t

/-- R101: `ADD Vx, kk` adds modulo 256 and changes nothing else, `VF` included unless it is `V[x]` (semantics from
general knowledge, the spec's decision D38). -/
def Obligations.AddImmediateWrapsWithoutFlag : Prop :=
  ∀ (x : Reg) (kk : Byte) (s : State), ∃ t, exec (.add7xkk x kk) s = .next t ∧
    (t.reg x).toNat = ((s.reg x).toNat + kk.toNat) % 256 ∧ OnlyChanges (· = .reg x) s t

/-- R102, R103, R104: the logic instructions work on every bit and change nothing else, `VF` included unless it is
`V[x]` (the spec's decision D18). -/
def Obligations.LogicInstructionsWorkBitwiseWithoutFlag : Prop :=
  ∀ (x y : Reg) (s : State),
    (∃ t, exec (.or8xy1 x y) s = .next t ∧ OnlyChanges (· = .reg x) s t ∧
      ∀ i : Fin 8, (t.reg x).getLsbD i = ((s.reg x).getLsbD i || (s.reg y).getLsbD i)) ∧
    (∃ t, exec (.and8xy2 x y) s = .next t ∧ OnlyChanges (· = .reg x) s t ∧
      ∀ i : Fin 8, (t.reg x).getLsbD i = ((s.reg x).getLsbD i && (s.reg y).getLsbD i)) ∧
    (∃ t, exec (.xor8xy3 x y) s = .next t ∧ OnlyChanges (· = .reg x) s t ∧
      ∀ i : Fin 8, (t.reg x).getLsbD i = ((s.reg x).getLsbD i ^^ (s.reg y).getLsbD i))

/-- R105: `ADD Vx, Vy`: carry in `VF`, then the sum modulo 256 in `V[x]`; with `x = 15` the result stays. -/
def Obligations.AddSetsCarryThenResult : Prop :=
  ∀ (x y : Reg), decodeWord (wordXYN 0x8 x y 0x4) = .add8xy4 x y ∧
    ∀ (s : State), ∃ t, exec (.add8xy4 x y) s = .next t ∧
      (t.reg x).toNat = ((s.reg x).toNat + (s.reg y).toNat) % 256 ∧
      (x ≠ regF → (t.reg regF).toNat = if (s.reg x).toNat + (s.reg y).toNat > 255 then 1 else 0) ∧
      OnlyChanges (fun p => p = .reg x ∨ p = .reg regF) s t

/-- R106: `SUB Vx, Vy`: `VF` is 1 iff minuend `V[x]` > subtrahend `V[y]` strictly, then the difference modulo 256 in
`V[x]`; with `x = 15` the result stays. -/
def Obligations.SubSetsGreaterThenResult : Prop :=
  ∀ (x y : Reg), decodeWord (wordXYN 0x8 x y 0x5) = .sub8xy5 x y ∧
    ∀ (s : State), ∃ t, exec (.sub8xy5 x y) s = .next t ∧
      ((t.reg x).toNat : Int) = ((s.reg x).toNat - (s.reg y).toNat : Int) % 256 ∧
      (x ≠ regF → (t.reg regF).toNat = if (s.reg x).toNat > (s.reg y).toNat then 1 else 0) ∧
      OnlyChanges (fun p => p = .reg x ∨ p = .reg regF) s t

/-- R108: `SUBN Vx, Vy`: as `SUB` with minuend `V[y]` and subtrahend `V[x]` (the direction is from general
knowledge, 93_implementation_defined.md G7). -/
def Obligations.ReverseSubSetsGreaterThenResult : Prop :=
  ∀ (x y : Reg) (s : State), ∃ t, exec (.subn8xy7 x y) s = .next t ∧
    ((t.reg x).toNat : Int) = ((s.reg y).toNat - (s.reg x).toNat : Int) % 256 ∧
    (x ≠ regF → (t.reg regF).toNat = if (s.reg y).toNat > (s.reg x).toNat then 1 else 0) ∧
    OnlyChanges (fun p => p = .reg x ∨ p = .reg regF) s t

/-- R107: `SHR Vx` halves `V[x]`, for every `y`; `VF` gets the bit shifted out or the whole byte, by
`SHR_FLAG_MODE`; with `x = 15` the result stays (the spec's decisions D11, D12, D13). -/
def Obligations.ShiftRightFlagByMode : Prop :=
  ∀ (x y : Reg) (s : State), ∃ t, exec (.shr8xy6 x y) s = .next t ∧
    (t.reg x).toNat = (s.reg x).toNat / 2 ∧
    (x ≠ regF → (t.reg regF).toNat = match s.straps.shrFlag with
      | .lowBit => (s.reg x).toNat % 2
      | .legacyValue => (s.reg x).toNat) ∧
    OnlyChanges (fun p => p = .reg x ∨ p = .reg regF) s t

/-- R109: `SHL Vx` doubles `V[x]` modulo 256, for every `y` and in both flag modes; `VF` gets the high bit before
the shift; with `x = 15` the result stays (the spec's decisions D12, D13). -/
def Obligations.ShiftLeftSetsHighBitFlag : Prop :=
  ∀ (x y : Reg) (s : State), ∃ t, exec (.shl8xyE x y) s = .next t ∧
    (t.reg x).toNat = (s.reg x).toNat * 2 % 256 ∧
    (x ≠ regF → (t.reg regF).toNat = (s.reg x).toNat / 128) ∧
    OnlyChanges (fun p => p = .reg x ∨ p = .reg regF) s t

/-! ### Control transfer -/

/-- R121: `JP nnn` loads `nnn` and changes nothing but `PC` (the bit pattern is from general knowledge, the spec's
decision D26). -/
def Obligations.JumpLoadsTheAddress : Prop :=
  ∀ (nnn : Addr12), decodeWord (wordNNN 0x1 nnn) = .jp1nnn nnn ∧
    ∀ (s : State), ∃ t, exec (.jp1nnn nnn) s = .next t ∧ t.pc.toNat = nnn.toNat ∧ OnlyChanges (· = .pc) s t

/-- R124: `JP V0, nnn` loads the unmasked sum (the spec's decision D9). -/
def Obligations.IndexedJumpAddsRegisterZero : Prop :=
  ∀ (nnn : Addr12) (s : State), ∃ t, exec (.jpBnnn nnn) s = .next t ∧
    t.pc.toNat = nnn.toNat + (s.reg 0).toNat ∧ t.pc.toNat ≤ 0x10FE ∧ OnlyChanges (· = .pc) s t

/-- R122: `CALL nnn` pushes the advanced `PC`, counts the slot and jumps; with 16 slots occupied the step latches
`StackFault` and changes nothing else (the bit pattern is from general knowledge, the spec's decision D26). -/
def Obligations.CallPushesReturnAddressOrFaults : Prop :=
  ∀ (nnn : Addr12), decodeWord (wordNNN 0x2 nnn) = .call2nnn nnn ∧
    (∀ (s : State) (k : Fin 16), s.sp.val = k.val → ∃ t, exec (.call2nnn nnn) s = .next t ∧
      t.stack[k.val] = s.pc ∧ t.sp.val = s.sp.val + 1 ∧ t.pc.toNat = nnn.toNat ∧
      OnlyChanges (fun p => p = .slot k ∨ p = .sp ∨ p = .pc) s t) ∧
    (∀ (s : State), s.sp.val = 16 → s.fetches (wordNNN 0x2 nnn) → ∃ t, step s = .next t ∧
      t.fault = some .stackFault ∧ OnlyChanges (· = .fault) s t)

/-- R123: `RET` frees the top slot, which keeps its value, and jumps to it; with no slot occupied the step latches
`StackFault` and changes nothing else (the bit pattern is from general knowledge, the spec's decision D26). -/
def Obligations.ReturnPopsOrFaults : Prop :=
  decodeWord 0x00EE = .ret00EE ∧
  (∀ (s : State) (k : Fin 16), s.sp.val = k.val + 1 → ∃ t, exec .ret00EE s = .next t ∧
    t.sp.val = k.val ∧ t.pc = s.stack[k.val] ∧ OnlyChanges (fun p => p = .sp ∨ p = .pc) s t) ∧
  (∀ (s : State), s.sp.val = 0 → s.fetches 0x00EE → ∃ t, step s = .next t ∧
    t.fault = some .stackFault ∧ OnlyChanges (· = .fault) s t)

/-- R125, R126, R127, R128: the four conditional skips add 2 to the advanced `PC` when the condition holds, and
change nothing else (the bit patterns are from general knowledge, the spec's decisions D26, D27). -/
def Obligations.ConditionalSkipsMoveOnlyTheCounter : Prop :=
  ∀ (x y : Reg) (kk : Byte),
    decodeWord (wordXKK 0x3 x kk) = .se3xkk x kk ∧ decodeWord (wordXKK 0x4 x kk) = .sne4xkk x kk ∧
    decodeWord (wordXYN 0x5 x y 0x0) = .se5xy0 x y ∧ decodeWord (wordXYN 0x9 x y 0x0) = .sne9xy0 x y ∧
    ∀ (s : State),
      (∃ t, exec (.se3xkk x kk) s = .next t ∧ OnlyChanges (· = .pc) s t ∧
        t.pc = if (s.reg x).toNat = kk.toNat then s.pc + 2 else s.pc) ∧
      (∃ t, exec (.sne4xkk x kk) s = .next t ∧ OnlyChanges (· = .pc) s t ∧
        t.pc = if (s.reg x).toNat = kk.toNat then s.pc else s.pc + 2) ∧
      (∃ t, exec (.se5xy0 x y) s = .next t ∧ OnlyChanges (· = .pc) s t ∧
        t.pc = if (s.reg x).toNat = (s.reg y).toNat then s.pc + 2 else s.pc) ∧
      (∃ t, exec (.sne9xy0 x y) s = .next t ∧ OnlyChanges (· = .pc) s t ∧
        t.pc = if (s.reg x).toNat = (s.reg y).toNat then s.pc else s.pc + 2)

/-! ### Loads, index register, memory -/

/-- R140, R141: `LD Vx, kk` and `LD Vx, Vy` copy a byte into `V[x]` and change nothing else; the second after the
first reproduces the byte exactly. -/
def Obligations.RegisterLoadsCopyTheByte : Prop :=
  ∀ (x y : Reg) (kk : Byte),
    decodeWord (wordXKK 0x6 x kk) = .ld6xkk x kk ∧ decodeWord (wordXYN 0x8 x y 0x0) = .ld8xy0 x y ∧
    ∀ (s : State),
      (∃ t, exec (.ld6xkk x kk) s = .next t ∧ t.reg x = kk ∧ OnlyChanges (· = .reg x) s t ∧
        ∃ u, exec (.ld8xy0 y x) t = .next u ∧ u.reg y = kk) ∧
      (∃ t, exec (.ld8xy0 x y) s = .next t ∧ t.reg x = s.reg y ∧ OnlyChanges (· = .reg x) s t)

/-- R142, R143: `LD I, nnn` sets `I`; `ADD I, Vx` adds modulo 65536, with no flag and no fault (the spec's decisions
D10, D38). -/
def Obligations.IndexLoadAndAddLeaveTheFlag : Prop :=
  ∀ (s : State),
    (∀ (nnn : Addr12), ∃ t, exec (.ldAnnn nnn) s = .next t ∧ t.idx.toNat = nnn.toNat ∧
      OnlyChanges (· = .idx) s t) ∧
    (∀ (x : Reg), ∃ t, exec (.addFx1E x) s = .next t ∧
      t.idx.toNat = (s.idx.toNat + (s.reg x).toNat) % 65536 ∧ OnlyChanges (· = .idx) s t)

/-- R144: `LD F, Vx` sets `I` to the address of the glyph that the low nibble of `V[x]` names, and reads nothing
(the bit pattern is from general knowledge, the spec's decision D26). -/
def Obligations.GlyphAddressFromLowNibble : Prop :=
  ∀ (x : Reg), decodeWord (wordXKK 0xF x 0x29) = .ldFx29 x ∧
    ∀ (s : State), ∃ t, exec (.ldFx29 x) s = .next t ∧
      t.idx.toNat = 0x050 + 5 * ((s.reg x).toNat % 16) ∧ OnlyChanges (· = .idx) s t

/-- R145: `LD B, Vx` stores hundreds, tens and ones at `I`, `I+1`, `I+2` and changes nothing else; when one of the
three lies outside memory the step latches `AddressOutOfRange` and no byte is written (the fault and its precision
are the spec's decisions D5, D6). -/
def Obligations.DecimalDigitsStoredOrFault : Prop :=
  ∀ (x : Reg), decodeWord (wordXKK 0xF x 0x33) = .ldFx33 x ∧
    (∀ (s : State), s.idx.toNat + 2 < 4096 → ∃ t, exec (.ldFx33 x) s = .next t ∧
      (t.byteAt s.idx.toNat).toNat = (s.reg x).toNat / 100 ∧
      (t.byteAt (s.idx.toNat + 1)).toNat = (s.reg x).toNat / 10 % 10 ∧
      (t.byteAt (s.idx.toNat + 2)).toNat = (s.reg x).toNat % 10 ∧
      OnlyChanges (fun p => p = .byte s.idx.toNat ∨ p = .byte (s.idx.toNat + 1) ∨ p = .byte (s.idx.toNat + 2)) s t) ∧
    (∀ (s : State), 4096 ≤ s.idx.toNat + 2 → s.fetches (wordXKK 0xF x 0x33) → ∃ t, step s = .next t ∧
      t.fault = some .addressOutOfRange ∧ OnlyChanges (· = .fault) s t)

/-- R146, R147: `LD [I], Vx` stores `V[0]` to `V[count-1]` at `I` on, where `count` is `x` or `x + 1` by
`REG_RANGE_MODE`, and changes nothing else, `I` included; a byte outside memory makes the step latch
`AddressOutOfRange` with no byte written (the spec's decisions D5, D6, D14). -/
def Obligations.RegisterDumpStoresTheRangeOrFaults : Prop :=
  ∀ (x : Reg) (s : State) (count : Nat),
    (count = match s.straps.regRange with
      | .exclusive => x.val
      | .inclusive => x.val + 1) →
    ((count = 0 ∨ s.idx.toNat + count ≤ 4096) → ∃ t, exec (.ldFx55 x) s = .next t ∧
      (∀ z : Reg, z.val < count → t.byteAt (s.idx.toNat + z.val) = s.reg z) ∧
      OnlyChanges (fun p => ∃ k, k < count ∧ p = .byte (s.idx.toNat + k)) s t) ∧
    (0 < count → 4096 < s.idx.toNat + count → s.fetches (wordXKK 0xF x 0x55) → ∃ t, step s = .next t ∧
      t.fault = some .addressOutOfRange ∧ OnlyChanges (· = .fault) s t)

/-- R146, R148: `LD Vx, [I]` loads `V[0]` to `V[count-1]` from `I` on, where `count` is `x` or `x + 1` by
`REG_RANGE_MODE`, and changes nothing else, `I` and memory included; a byte outside memory makes the step latch
`AddressOutOfRange` with no register written (the spec's decisions D5, D6, D14). -/
def Obligations.RegisterLoadReadsTheRangeOrFaults : Prop :=
  ∀ (x : Reg) (s : State) (count : Nat),
    (count = match s.straps.regRange with
      | .exclusive => x.val
      | .inclusive => x.val + 1) →
    ((count = 0 ∨ s.idx.toNat + count ≤ 4096) → ∃ t, exec (.ldFx65 x) s = .next t ∧
      (∀ z : Reg, z.val < count → t.reg z = s.byteAt (s.idx.toNat + z.val)) ∧
      OnlyChanges (fun p => ∃ z : Reg, z.val < count ∧ p = .reg z) s t) ∧
    (0 < count → 4096 < s.idx.toNat + count → s.fetches (wordXKK 0xF x 0x65) → ∃ t, step s = .next t ∧
      t.fault = some .addressOutOfRange ∧ OnlyChanges (· = .fault) s t)

/-- R148, source property of section 8: a load after a dump, with the same `I` and register number, restores the
registers of the range, whatever the registers held in between. -/
def Obligations.DumpThenLoadRestoresTheRange : Prop :=
  ∀ (x : Reg) (s t : State) (v : Vector Byte 16), exec (.ldFx55 x) s = .next t → t.running →
    ∃ u, exec (.ldFx65 x) { t with v := v } = .next u ∧
      ∀ z : Reg, u.reg z = if z.val < regCount s.straps.regRange x then s.reg z else v[z.val]

/-! ### Timers, keypad, random -/

/-- R161, R162, R163: the timer loads and reads copy a byte and change nothing else; the tick of the same step
follows (the bit pattern is from general knowledge, the spec's decision D26). -/
def Obligations.TimerInstructionsCopyThenTick : Prop :=
  ∀ (x : Reg),
    decodeWord (wordXKK 0xF x 0x07) = .ldFx07 x ∧ decodeWord (wordXKK 0xF x 0x15) = .ldFx15 x ∧
    decodeWord (wordXKK 0xF x 0x18) = .ldFx18 x ∧
    (∀ (s : State),
      (∃ t, exec (.ldFx07 x) s = .next t ∧ t.reg x = s.dt ∧ OnlyChanges (· = .reg x) s t) ∧
      (∃ t, exec (.ldFx15 x) s = .next t ∧ t.dt = s.reg x ∧ OnlyChanges (· = .dt) s t) ∧
      (∃ t, exec (.ldFx18 x) s = .next t ∧ t.st = s.reg x ∧ OnlyChanges (· = .st) s t)) ∧
    (∀ (s : State),
      (s.fetches (wordXKK 0xF x 0x07) → ∃ t, step s = .next t ∧ t.reg x = s.dt ∧ t.dt.toNat = s.dt.toNat - 1) ∧
      (s.fetches (wordXKK 0xF x 0x15) → ∃ t, step s = .next t ∧ t.dt.toNat = (s.reg x).toNat - 1) ∧
      (s.fetches (wordXKK 0xF x 0x18) → ∃ t, step s = .next t ∧ t.st.toNat = (s.reg x).toNat - 1))

/-- R164: `LD Vx, K` stores the lowest pressed key; with no key pressed it takes `PC` back to itself and changes
nothing else (level-sensitive, the spec's decision D33). -/
def Obligations.KeyWaitStoresLowestKeyOrRetries : Prop :=
  ∀ (x : Reg) (s : State),
    (∀ k : Fin 16, s.key[k.val] = true → (∀ j : Fin 16, j < k → s.key[j.val] = false) →
      ∃ t, exec (.ldFx0A x) s = .next t ∧ (t.reg x).toNat = k.val ∧ OnlyChanges (· = .reg x) s t) ∧
    ((∀ k : Fin 16, s.key[k.val] = false) →
      ∃ t, exec (.ldFx0A x) s = .next t ∧ t.pc = s.pc - 2 ∧ OnlyChanges (· = .pc) s t)

/-- R165, R166, R167: the key skips test the key that the low nibble of `V[x]` names and move only `PC` (the low
nibble is the spec's decision D19). -/
def Obligations.KeySkipsTestTheNamedKey : Prop :=
  ∀ (x : Reg) (s : State) (k : Fin 16), k.val = (s.reg x).toNat % 16 →
    (∃ t, exec (.skpEx9E x) s = .next t ∧ OnlyChanges (· = .pc) s t ∧
      t.pc = if s.key[k.val] then s.pc + 2 else s.pc) ∧
    (∃ t, exec (.sknpExA1 x) s = .next t ∧ OnlyChanges (· = .pc) s t ∧
      t.pc = if s.key[k.val] then s.pc else s.pc + 2)

/-- R168: `RND Vx, kk` puts the drawn byte masked with `kk` in `V[x]`, whatever byte is drawn, counts the draw, and
changes nothing else (semantics from general knowledge, the spec's decisions D20, D38; the byte is the model's
free value, log 3). -/
def Obligations.RandomByteIsMasked : Prop :=
  ∀ (x : Reg) (kk : Byte) (s : State), ∃ t, exec (.rndCxkk x kk) s = .next t ∧
    (∀ i : Fin 8, (t.reg x).getLsbD i = ((Config.rndByte s.draws).getLsbD i && kk.getLsbD i)) ∧
    t.draws = s.draws + 1 ∧ OnlyChanges (fun p => p = .reg x ∨ p = .draws) s t

/-! ### Display -/

/-- R181: `CLS` turns every cell off and changes nothing else, `VF` included (from general knowledge, the spec's
decision D38). -/
def Obligations.ClearTurnsEveryCellOff : Prop :=
  ∀ (s : State), ∃ t, exec .cls00E0 s = .next t ∧ (∀ i, t.cell i = false) ∧
    OnlyChanges (fun p => ∃ i, p = .cell i) s t

/-- R182, R183, R184: `DRW` in both edge modes. `cells` is the list of the cells that the sprite's set bits fall
on, in drawing order: rows `r` below `n` ascending, in each row the columns `c` below 8 ascending where bit `7 -
c` of the byte at `I + r` is 1, each at the cell of column `V[x] mod 64 + c` and row `V[y] mod 32 + r`, which is
`(row mod 32) * 64 + column mod 64` in `WRAP` mode and `min(row * 64 + column, 2047)` in `CLAMP` mode. Each cell
is toggled once for every occurrence, `VF` is 1 iff some set bit found its cell on when it was applied, else 0,
and nothing else changes. With `n = 0` no cell changes and `VF` is 0 (the clamp formula is the spec's decision
D15, the bit order D16, and that `n = 0` reads nothing D36). -/
def Obligations.DrawTogglesCellsAndDetectsCollision : Prop :=
  ∀ (x y : Reg) (n : Nibble) (s : State), n.toNat = 0 ∨ s.idx.toNat + n.toNat ≤ 4096 →
    ∀ (cells : List Nat),
      cells = (List.range n.toNat).flatMap (fun r =>
        ((List.range 8).filter (fun c => (s.byteAt (s.idx.toNat + r)).getLsbD (7 - c))).map (fun c =>
          match s.straps.drawEdge with
          | .wrap => ((s.reg y).toNat % 32 + r) % 32 * 64 + ((s.reg x).toNat % 64 + c) % 64
          | .clamp => min (((s.reg y).toNat % 32 + r) * 64 + ((s.reg x).toNat % 64 + c)) 2047)) →
      ∃ t, exec (.drwDxyn x y n) s = .next t ∧
        (∀ i : Fin 2048, t.cell i.val = (s.cell i.val ^^ decide (cells.count i.val % 2 = 1))) ∧
        ((t.reg regF).toNat = 1 ↔ ∃ before i after, cells = before ++ i :: after ∧
          (s.cell i ^^ decide (before.count i % 2 = 1)) = true) ∧
        ((t.reg regF).toNat = 0 ↔ ¬ ∃ before i after, cells = before ++ i :: after ∧
          (s.cell i ^^ decide (before.count i % 2 = 1)) = true) ∧
        OnlyChanges (fun p => p = .reg regF ∨ ∃ i, p = .cell i) s t

/-- R183, R184, R185, in `WRAP` mode and in terms of the sprite's bits alone: the cell at column `cx`, row `cy` is
toggled iff some set bit of the sprite falls on it, rows and columns wrapping, and `VF` is 1 iff the sprite's set
bits and the lit cells intersect, else 0 (the edge mode is the spec's decision D15, the bit order D16, that `n =
0` reads nothing D36). The frame and `CLAMP` mode are in `DrawTogglesCellsAndDetectsCollision`. -/
def Obligations.WrappedDrawIsXorAndIntersection : Prop :=
  ∀ (x y : Reg) (n : Nibble) (s : State), s.straps.drawEdge = .wrap → n.toNat = 0 ∨ s.idx.toNat + n.toNat ≤ 4096 →
    ∀ (covers : Nat → Nat → Prop),
      (∀ cx cy, covers cx cy ↔ ∃ r c, r < n.toNat ∧ c < 8 ∧
        (s.byteAt (s.idx.toNat + r)).getLsbD (7 - c) = true ∧
        ((s.reg x).toNat + c) % 64 = cx ∧ ((s.reg y).toNat + r) % 32 = cy) →
      ∃ t, exec (.drwDxyn x y n) s = .next t ∧
        (∀ (cx : Fin 64) (cy : Fin 32),
          (t.cell (cy.val * 64 + cx.val) ≠ s.cell (cy.val * 64 + cx.val) ↔ covers cx.val cy.val)) ∧
        ((t.reg regF).toNat = 1 ↔ ∃ cx cy, covers cx cy ∧ s.cell (cy * 64 + cx) = true) ∧
        ((t.reg regF).toNat = 0 ↔ ¬ ∃ cx cy, covers cx cy ∧ s.cell (cy * 64 + cx) = true)

/-- R183, R202, R204: `DRW` with a sprite row outside memory makes the step latch `AddressOutOfRange` and change
nothing else, `VF` and the display included (the spec's decisions D6, D36). -/
def Obligations.DrawOutsideMemoryFaults : Prop :=
  ∀ (x y : Reg) (n : Nibble) (s : State), 0 < n.toNat → 4096 < s.idx.toNat + n.toNat →
    s.fetches (wordXYN 0xD x y n) →
    ∃ t, step s = .next t ∧ t.fault = some .addressOutOfRange ∧ OnlyChanges (· = .fault) s t
end

