-- ==== Sys2Proof/Laws/Decode.lean ====
section
/-! SUPPORT. The fields of a word that was made of fields, a word remade of its fields, and the bytes of a
word. Each is an equality bit by bit. -/

namespace Sys2Proof

variable (w : Word) (op n : Nibble) (x y : Reg) (kk : Byte) (nnn : Addr12) (hi lo : Byte)

/-- Two register numbers of the same four bits are the same. -/
theorem toFin_eq_of_regBits {b : Nibble} (h : b = regBits x) : b.toFin = x := by subst h; rfl

@[simp] theorem opField_wordXYN : opField (wordXYN op x y n) = op := by
  refine BitVec.eq_of_getLsbD_eq fun i hi => ?_
  simp only [opField, wordXYN, BitVec.getLsbD_extractLsb', BitVec.getLsbD_append]
  interval_cases i <;> rfl

@[simp] theorem xField_wordXYN : xField (wordXYN op x y n) = x := by
  refine toFin_eq_of_regBits x (BitVec.eq_of_getLsbD_eq fun i hi => ?_)
  simp only [wordXYN, BitVec.getLsbD_extractLsb', BitVec.getLsbD_append]
  interval_cases i <;> rfl

@[simp] theorem yField_wordXYN : yField (wordXYN op x y n) = y := by
  refine toFin_eq_of_regBits y (BitVec.eq_of_getLsbD_eq fun i hi => ?_)
  simp only [wordXYN, BitVec.getLsbD_extractLsb', BitVec.getLsbD_append]
  interval_cases i <;> rfl

@[simp] theorem nField_wordXYN : nField (wordXYN op x y n) = n := by
  refine BitVec.eq_of_getLsbD_eq fun i hi => ?_
  simp only [nField, wordXYN, BitVec.getLsbD_extractLsb', BitVec.getLsbD_append]
  interval_cases i <;> rfl

@[simp] theorem opField_wordXKK : opField (wordXKK op x kk) = op := by
  refine BitVec.eq_of_getLsbD_eq fun i hi => ?_
  simp only [opField, wordXKK, BitVec.getLsbD_extractLsb', BitVec.getLsbD_append]
  interval_cases i <;> rfl

@[simp] theorem xField_wordXKK : xField (wordXKK op x kk) = x := by
  refine toFin_eq_of_regBits x (BitVec.eq_of_getLsbD_eq fun i hi => ?_)
  simp only [wordXKK, BitVec.getLsbD_extractLsb', BitVec.getLsbD_append]
  interval_cases i <;> rfl

@[simp] theorem kkField_wordXKK : kkField (wordXKK op x kk) = kk := by
  refine BitVec.eq_of_getLsbD_eq fun i hi => ?_
  simp only [kkField, wordXKK, BitVec.getLsbD_extractLsb', BitVec.getLsbD_append]
  interval_cases i <;> rfl

@[simp] theorem opField_wordNNN : opField (wordNNN op nnn) = op := by
  refine BitVec.eq_of_getLsbD_eq fun i hi => ?_
  simp only [opField, wordNNN, BitVec.getLsbD_extractLsb', BitVec.getLsbD_append]
  interval_cases i <;> rfl

@[simp] theorem nnnField_wordNNN : nnnField (wordNNN op nnn) = nnn := by
  refine BitVec.eq_of_getLsbD_eq fun i hi => ?_
  simp only [nnnField, wordNNN, BitVec.getLsbD_extractLsb', BitVec.getLsbD_append]
  interval_cases i <;> rfl

@[simp] theorem regBits_xField : regBits (xField w) = w.extractLsb' 8 4 := rfl

@[simp] theorem regBits_yField : regBits (yField w) = w.extractLsb' 4 4 := rfl

@[simp] theorem wordXYN_fields : wordXYN (opField w) (xField w) (yField w) (nField w) = w := by
  refine BitVec.eq_of_getLsbD_eq fun i hi => ?_
  simp only [wordXYN, opField, nField, regBits_xField, regBits_yField, BitVec.getLsbD_append, BitVec.getLsbD_extractLsb']
  interval_cases i <;> rfl

@[simp] theorem wordXKK_fields : wordXKK (opField w) (xField w) (kkField w) = w := by
  refine BitVec.eq_of_getLsbD_eq fun i hi => ?_
  simp only [wordXKK, opField, kkField, regBits_xField, BitVec.getLsbD_append, BitVec.getLsbD_extractLsb']
  interval_cases i <;> rfl

@[simp] theorem wordNNN_fields : wordNNN (opField w) (nnnField w) = w := by
  refine BitVec.eq_of_getLsbD_eq fun i hi => ?_
  simp only [wordNNN, opField, nnnField, BitVec.getLsbD_append, BitVec.getLsbD_extractLsb']
  interval_cases i <;> rfl

@[simp] theorem wordOfBytes_bytes : wordOfBytes (highByte w) (lowByte w) = w := by
  refine BitVec.eq_of_getLsbD_eq fun i hi => ?_
  simp only [wordOfBytes, highByte, lowByte, BitVec.getLsbD_append, BitVec.getLsbD_extractLsb']
  interval_cases i <;> rfl

@[simp] theorem highByte_wordOfBytes : highByte (wordOfBytes hi lo) = hi := by
  refine BitVec.eq_of_getLsbD_eq fun i h => ?_
  simp only [highByte, wordOfBytes, BitVec.getLsbD_extractLsb', BitVec.getLsbD_append]
  interval_cases i <;> rfl

@[simp] theorem lowByte_wordOfBytes : lowByte (wordOfBytes hi lo) = lo := by
  refine BitVec.eq_of_getLsbD_eq fun i h => ?_
  simp only [lowByte, wordOfBytes, BitVec.getLsbD_extractLsb', BitVec.getLsbD_append]
  interval_cases i <;> rfl

end Sys2Proof
end

