-- ==== Sys2Proof/Laws/Memory.lean ====
section
/-! SUPPORT. The laws of memory: read after write, and the canonical form kept by every operation. -/

namespace Sys2Proof.Machine

variable {base : Nat → Byte}

theorem Memory.get_insert (m : Memory) (a : Nat) (u : Byte) (c : Nat) :
    (m.insert a u).get base c = if c = a then u else m.get base c := by
  induction m with
  | nil => rfl
  | cons e rest ih =>
    obtain ⟨b, w⟩ := e
    simp only [Memory.insert]
    split_ifs with h1 h2 h3 h4 <;> simp only [Memory.get, ih] <;> split_ifs <;> first | rfl | omega

theorem Memory.get_filter (m : Memory) (a c : Nat) :
    Memory.get base (m.filter (fun e => e.1 != a)) c = if c = a then base a else m.get base c := by
  induction m with
  | nil => by_cases h : c = a <;> simp [Memory.get, h]
  | cons e rest ih =>
    obtain ⟨b, w⟩ := e
    by_cases hb : b = a
    · subst hb; simp only [List.filter, bne_self_eq_false, ih, Memory.get]; split_ifs <;> rfl
    · simp only [List.filter, bne_iff_ne.2 hb, Memory.get, ih]; split_ifs <;> first | rfl | omega

/-- A stored byte is read back, and every other address reads as before. -/
theorem Memory.get_put (m : Memory) (a : Nat) (u : Byte) (c : Nat) :
    (m.put base a u).get base c = if c = a then u else m.get base c := by
  unfold Memory.put
  split_ifs with h1 h2 <;> simp_all [Memory.get_filter, Memory.get_insert]

theorem Memory.wfFrom_mono {m : Memory} {lo hi : Nat} (h : lo ≤ hi) (w : Memory.wfFrom base hi m = true) :
    Memory.wfFrom base lo m = true := by
  cases m with
  | nil => rfl
  | cons e rest =>
    simp only [Memory.wfFrom, Bool.and_eq_true, decide_eq_true_eq] at w ⊢
    exact ⟨⟨⟨le_trans h w.1.1.1, w.1.1.2⟩, w.1.2⟩, w.2⟩

theorem Memory.wfFrom_filter {m : Memory} {lo : Nat} (p : Host.Cell → Bool)
    (w : Memory.wfFrom base lo m = true) : Memory.wfFrom base lo (m.filter p) = true := by
  induction m generalizing lo with
  | nil => rfl
  | cons e rest ih =>
    simp only [Memory.wfFrom, Bool.and_eq_true, decide_eq_true_eq] at w
    simp only [List.filter]
    split
    · simp only [Memory.wfFrom, Bool.and_eq_true, decide_eq_true_eq]; exact ⟨w.1, ih w.2⟩
    · exact Memory.wfFrom_mono (by omega) (ih w.2)

theorem Memory.wfFrom_insert {m : Memory} {lo a : Nat} {u : Byte} (hlo : lo ≤ a) (ha : a < memSize)
    (hu : u ≠ base a) (w : Memory.wfFrom base lo m = true) : Memory.wfFrom base lo (m.insert a u) = true := by
  induction m generalizing lo with
  | nil => simp [Memory.insert, Memory.wfFrom, hlo, ha, hu]
  | cons e rest ih =>
    obtain ⟨b, v⟩ := e
    simp only [Memory.wfFrom, Bool.and_eq_true, decide_eq_true_eq, bne_iff_ne] at w
    simp only [Memory.insert]
    split_ifs with h1 h2
    · simp only [Memory.wfFrom, Bool.and_eq_true, decide_eq_true_eq, bne_iff_ne]
      exact ⟨⟨⟨hlo, ha⟩, hu⟩, ⟨⟨by omega, w.1.1.2⟩, w.1.2⟩, w.2⟩
    · subst h2
      simp only [Memory.wfFrom, Bool.and_eq_true, decide_eq_true_eq, bne_iff_ne]
      exact ⟨⟨⟨hlo, ha⟩, hu⟩, w.2⟩
    · simp only [Memory.wfFrom, Bool.and_eq_true, decide_eq_true_eq, bne_iff_ne]
      exact ⟨w.1, ih (by omega) w.2⟩

/-- A store inside memory keeps the canonical form. -/
theorem Memory.wf_put {m : Memory} {a : Nat} {u : Byte} (ha : a < memSize) (w : m.wf base = true) :
    (m.put base a u).wf base = true := by
  unfold Memory.put
  split_ifs with h
  · exact Memory.wfFrom_filter _ w
  · exact Memory.wfFrom_insert (Nat.zero_le a) ha h w

theorem Memory.get_ofBytes (a : Nat) (bs : List Byte) (c : Nat) :
    (Memory.ofBytes base a bs).get base c = if a ≤ c then bs.getD (c - a) (base c) else base c := by
  induction bs generalizing a with
  | nil => simp [Memory.ofBytes, Memory.get]
  | cons b bs ih =>
    have step : ∀ d : Byte, (if a + 1 ≤ c then bs.getD (c - (a + 1)) (base c) else base c) =
        if c = a then base c else if a ≤ c then (d :: bs).getD (c - a) (base c) else base c := by
      intro d
      by_cases h1 : a + 1 ≤ c
      · have h2 : c - a = (c - (a + 1)) + 1 := by omega
        rw [if_pos h1, if_neg (by omega), if_pos (by omega), h2, List.getD_cons_succ]
      · rw [if_neg h1]; split_ifs <;> first | rfl | omega
    simp only [Memory.ofBytes]
    by_cases h : b = base a
    · rw [if_pos h, ih, step b]
      by_cases hc : c = a
      · subst hc; simp [h]
      · rw [if_neg hc]
    · rw [if_neg h]
      simp only [Memory.get, ih, step b]
      by_cases hc : c = a
      · subst hc; simp
      · rw [if_neg hc, if_neg hc]

/-- A program that fits gives a memory in canonical form. -/
theorem Memory.wfFrom_ofBytes (a : Nat) (bs : List Byte) (fits : a + bs.length ≤ memSize) :
    Memory.wfFrom base a (Memory.ofBytes base a bs) = true := by
  induction bs generalizing a with
  | nil => rfl
  | cons b bs ih =>
    rw [List.length_cons] at fits
    have h1 := ih (a + 1) (by omega)
    simp only [Memory.ofBytes]
    split_ifs with h
    · exact Memory.wfFrom_mono (Nat.le_succ a) h1
    · simp only [Memory.wfFrom, Bool.and_eq_true, decide_eq_true_eq, bne_iff_ne]
      exact ⟨⟨⟨le_refl a, by omega⟩, h⟩, h1⟩

end Sys2Proof.Machine
end

