-- ==== Sys2Proof/Laws/State.lean ====
section
/-! SUPPORT. What each update of the state does to each field and each accessor: the updated one, and the
others left alone. All hold by computation. -/

namespace Sys2Proof.Machine

variable (s : State)

@[simp] theorem setReg_idx (x : Reg) (b : Byte) : (s.setReg x b).idx = s.idx := rfl
@[simp] theorem setReg_pc (x : Reg) (b : Byte) : (s.setReg x b).pc = s.pc := rfl
@[simp] theorem setReg_stack (x : Reg) (b : Byte) : (s.setReg x b).stack = s.stack := rfl
@[simp] theorem setReg_sp (x : Reg) (b : Byte) : (s.setReg x b).sp = s.sp := rfl
@[simp] theorem setReg_dt (x : Reg) (b : Byte) : (s.setReg x b).dt = s.dt := rfl
@[simp] theorem setReg_st (x : Reg) (b : Byte) : (s.setReg x b).st = s.st := rfl
@[simp] theorem setReg_key (x : Reg) (b : Byte) : (s.setReg x b).key = s.key := rfl
@[simp] theorem setReg_fb (x : Reg) (b : Byte) : (s.setReg x b).fb = s.fb := rfl
@[simp] theorem setReg_mem (x : Reg) (b : Byte) : (s.setReg x b).mem = s.mem := rfl
@[simp] theorem setReg_fault (x : Reg) (b : Byte) : (s.setReg x b).fault = s.fault := rfl
@[simp] theorem setReg_straps (x : Reg) (b : Byte) : (s.setReg x b).straps = s.straps := rfl
@[simp] theorem setReg_draws (x : Reg) (b : Byte) : (s.setReg x b).draws = s.draws := rfl
@[simp] theorem setReg_cell (x : Reg) (b : Byte) (j : Nat) : (s.setReg x b).cell j = s.cell j := rfl
@[simp] theorem setReg_byteAt (x : Reg) (b : Byte) (c : Nat) : (s.setReg x b).byteAt c = s.byteAt c := rfl
@[simp] theorem setReg_base (x : Reg) (b : Byte) : (s.setReg x b).base = s.base := rfl
@[simp] theorem setReg_memWf (x : Reg) (b : Byte) : (s.setReg x b).memWf = s.memWf := rfl

@[simp] theorem setIdx_idx (w : Word) : (s.setIdx w).idx = w := rfl
@[simp] theorem setIdx_pc (w : Word) : (s.setIdx w).pc = s.pc := rfl
@[simp] theorem setIdx_stack (w : Word) : (s.setIdx w).stack = s.stack := rfl
@[simp] theorem setIdx_sp (w : Word) : (s.setIdx w).sp = s.sp := rfl
@[simp] theorem setIdx_dt (w : Word) : (s.setIdx w).dt = s.dt := rfl
@[simp] theorem setIdx_st (w : Word) : (s.setIdx w).st = s.st := rfl
@[simp] theorem setIdx_key (w : Word) : (s.setIdx w).key = s.key := rfl
@[simp] theorem setIdx_fb (w : Word) : (s.setIdx w).fb = s.fb := rfl
@[simp] theorem setIdx_mem (w : Word) : (s.setIdx w).mem = s.mem := rfl
@[simp] theorem setIdx_fault (w : Word) : (s.setIdx w).fault = s.fault := rfl
@[simp] theorem setIdx_straps (w : Word) : (s.setIdx w).straps = s.straps := rfl
@[simp] theorem setIdx_draws (w : Word) : (s.setIdx w).draws = s.draws := rfl
@[simp] theorem setIdx_v (w : Word) : (s.setIdx w).v = s.v := rfl
@[simp] theorem setIdx_reg (w : Word) (z : Reg) : (s.setIdx w).reg z = s.reg z := rfl
@[simp] theorem setIdx_cell (w : Word) (j : Nat) : (s.setIdx w).cell j = s.cell j := rfl
@[simp] theorem setIdx_byteAt (w : Word) (c : Nat) : (s.setIdx w).byteAt c = s.byteAt c := rfl
@[simp] theorem setIdx_base (w : Word) : (s.setIdx w).base = s.base := rfl
@[simp] theorem setIdx_memWf (w : Word) : (s.setIdx w).memWf = s.memWf := rfl

@[simp] theorem setPc_idx (w : Word) : (s.setPc w).idx = s.idx := rfl
@[simp] theorem setPc_pc (w : Word) : (s.setPc w).pc = w := rfl
@[simp] theorem setPc_stack (w : Word) : (s.setPc w).stack = s.stack := rfl
@[simp] theorem setPc_sp (w : Word) : (s.setPc w).sp = s.sp := rfl
@[simp] theorem setPc_dt (w : Word) : (s.setPc w).dt = s.dt := rfl
@[simp] theorem setPc_st (w : Word) : (s.setPc w).st = s.st := rfl
@[simp] theorem setPc_key (w : Word) : (s.setPc w).key = s.key := rfl
@[simp] theorem setPc_fb (w : Word) : (s.setPc w).fb = s.fb := rfl
@[simp] theorem setPc_mem (w : Word) : (s.setPc w).mem = s.mem := rfl
@[simp] theorem setPc_fault (w : Word) : (s.setPc w).fault = s.fault := rfl
@[simp] theorem setPc_straps (w : Word) : (s.setPc w).straps = s.straps := rfl
@[simp] theorem setPc_draws (w : Word) : (s.setPc w).draws = s.draws := rfl
@[simp] theorem setPc_v (w : Word) : (s.setPc w).v = s.v := rfl
@[simp] theorem setPc_reg (w : Word) (z : Reg) : (s.setPc w).reg z = s.reg z := rfl
@[simp] theorem setPc_cell (w : Word) (j : Nat) : (s.setPc w).cell j = s.cell j := rfl
@[simp] theorem setPc_byteAt (w : Word) (c : Nat) : (s.setPc w).byteAt c = s.byteAt c := rfl
@[simp] theorem setPc_base (w : Word) : (s.setPc w).base = s.base := rfl
@[simp] theorem setPc_memWf (w : Word) : (s.setPc w).memWf = s.memWf := rfl

@[simp] theorem advance_idx : (s.advance).idx = s.idx := rfl
@[simp] theorem advance_pc : (s.advance).pc = s.pc + 2 := rfl
@[simp] theorem advance_stack : (s.advance).stack = s.stack := rfl
@[simp] theorem advance_sp : (s.advance).sp = s.sp := rfl
@[simp] theorem advance_dt : (s.advance).dt = s.dt := rfl
@[simp] theorem advance_st : (s.advance).st = s.st := rfl
@[simp] theorem advance_key : (s.advance).key = s.key := rfl
@[simp] theorem advance_fb : (s.advance).fb = s.fb := rfl
@[simp] theorem advance_mem : (s.advance).mem = s.mem := rfl
@[simp] theorem advance_fault : (s.advance).fault = s.fault := rfl
@[simp] theorem advance_straps : (s.advance).straps = s.straps := rfl
@[simp] theorem advance_draws : (s.advance).draws = s.draws := rfl
@[simp] theorem advance_v : (s.advance).v = s.v := rfl
@[simp] theorem advance_reg (z : Reg) : (s.advance).reg z = s.reg z := rfl
@[simp] theorem advance_cell (j : Nat) : (s.advance).cell j = s.cell j := rfl
@[simp] theorem advance_byteAt (c : Nat) : (s.advance).byteAt c = s.byteAt c := rfl
@[simp] theorem advance_base : (s.advance).base = s.base := rfl
@[simp] theorem advance_memWf : (s.advance).memWf = s.memWf := rfl

@[simp] theorem rewind_idx : (s.rewind).idx = s.idx := rfl
@[simp] theorem rewind_pc : (s.rewind).pc = s.pc - 2 := rfl
@[simp] theorem rewind_stack : (s.rewind).stack = s.stack := rfl
@[simp] theorem rewind_sp : (s.rewind).sp = s.sp := rfl
@[simp] theorem rewind_dt : (s.rewind).dt = s.dt := rfl
@[simp] theorem rewind_st : (s.rewind).st = s.st := rfl
@[simp] theorem rewind_key : (s.rewind).key = s.key := rfl
@[simp] theorem rewind_fb : (s.rewind).fb = s.fb := rfl
@[simp] theorem rewind_mem : (s.rewind).mem = s.mem := rfl
@[simp] theorem rewind_fault : (s.rewind).fault = s.fault := rfl
@[simp] theorem rewind_straps : (s.rewind).straps = s.straps := rfl
@[simp] theorem rewind_draws : (s.rewind).draws = s.draws := rfl
@[simp] theorem rewind_v : (s.rewind).v = s.v := rfl
@[simp] theorem rewind_reg (z : Reg) : (s.rewind).reg z = s.reg z := rfl
@[simp] theorem rewind_cell (j : Nat) : (s.rewind).cell j = s.cell j := rfl
@[simp] theorem rewind_byteAt (c : Nat) : (s.rewind).byteAt c = s.byteAt c := rfl
@[simp] theorem rewind_base : (s.rewind).base = s.base := rfl
@[simp] theorem rewind_memWf : (s.rewind).memWf = s.memWf := rfl

@[simp] theorem setDt_idx (b : Byte) : (s.setDt b).idx = s.idx := rfl
@[simp] theorem setDt_pc (b : Byte) : (s.setDt b).pc = s.pc := rfl
@[simp] theorem setDt_stack (b : Byte) : (s.setDt b).stack = s.stack := rfl
@[simp] theorem setDt_sp (b : Byte) : (s.setDt b).sp = s.sp := rfl
@[simp] theorem setDt_dt (b : Byte) : (s.setDt b).dt = b := rfl
@[simp] theorem setDt_st (b : Byte) : (s.setDt b).st = s.st := rfl
@[simp] theorem setDt_key (b : Byte) : (s.setDt b).key = s.key := rfl
@[simp] theorem setDt_fb (b : Byte) : (s.setDt b).fb = s.fb := rfl
@[simp] theorem setDt_mem (b : Byte) : (s.setDt b).mem = s.mem := rfl
@[simp] theorem setDt_fault (b : Byte) : (s.setDt b).fault = s.fault := rfl
@[simp] theorem setDt_straps (b : Byte) : (s.setDt b).straps = s.straps := rfl
@[simp] theorem setDt_draws (b : Byte) : (s.setDt b).draws = s.draws := rfl
@[simp] theorem setDt_v (b : Byte) : (s.setDt b).v = s.v := rfl
@[simp] theorem setDt_reg (b : Byte) (z : Reg) : (s.setDt b).reg z = s.reg z := rfl
@[simp] theorem setDt_cell (b : Byte) (j : Nat) : (s.setDt b).cell j = s.cell j := rfl
@[simp] theorem setDt_byteAt (b : Byte) (c : Nat) : (s.setDt b).byteAt c = s.byteAt c := rfl
@[simp] theorem setDt_base (b : Byte) : (s.setDt b).base = s.base := rfl
@[simp] theorem setDt_memWf (b : Byte) : (s.setDt b).memWf = s.memWf := rfl

@[simp] theorem setSt_idx (b : Byte) : (s.setSt b).idx = s.idx := rfl
@[simp] theorem setSt_pc (b : Byte) : (s.setSt b).pc = s.pc := rfl
@[simp] theorem setSt_stack (b : Byte) : (s.setSt b).stack = s.stack := rfl
@[simp] theorem setSt_sp (b : Byte) : (s.setSt b).sp = s.sp := rfl
@[simp] theorem setSt_dt (b : Byte) : (s.setSt b).dt = s.dt := rfl
@[simp] theorem setSt_st (b : Byte) : (s.setSt b).st = b := rfl
@[simp] theorem setSt_key (b : Byte) : (s.setSt b).key = s.key := rfl
@[simp] theorem setSt_fb (b : Byte) : (s.setSt b).fb = s.fb := rfl
@[simp] theorem setSt_mem (b : Byte) : (s.setSt b).mem = s.mem := rfl
@[simp] theorem setSt_fault (b : Byte) : (s.setSt b).fault = s.fault := rfl
@[simp] theorem setSt_straps (b : Byte) : (s.setSt b).straps = s.straps := rfl
@[simp] theorem setSt_draws (b : Byte) : (s.setSt b).draws = s.draws := rfl
@[simp] theorem setSt_v (b : Byte) : (s.setSt b).v = s.v := rfl
@[simp] theorem setSt_reg (b : Byte) (z : Reg) : (s.setSt b).reg z = s.reg z := rfl
@[simp] theorem setSt_cell (b : Byte) (j : Nat) : (s.setSt b).cell j = s.cell j := rfl
@[simp] theorem setSt_byteAt (b : Byte) (c : Nat) : (s.setSt b).byteAt c = s.byteAt c := rfl
@[simp] theorem setSt_base (b : Byte) : (s.setSt b).base = s.base := rfl
@[simp] theorem setSt_memWf (b : Byte) : (s.setSt b).memWf = s.memWf := rfl

@[simp] theorem setFb_idx (f : BitVec 2048) : (s.setFb f).idx = s.idx := rfl
@[simp] theorem setFb_pc (f : BitVec 2048) : (s.setFb f).pc = s.pc := rfl
@[simp] theorem setFb_stack (f : BitVec 2048) : (s.setFb f).stack = s.stack := rfl
@[simp] theorem setFb_sp (f : BitVec 2048) : (s.setFb f).sp = s.sp := rfl
@[simp] theorem setFb_dt (f : BitVec 2048) : (s.setFb f).dt = s.dt := rfl
@[simp] theorem setFb_st (f : BitVec 2048) : (s.setFb f).st = s.st := rfl
@[simp] theorem setFb_key (f : BitVec 2048) : (s.setFb f).key = s.key := rfl
@[simp] theorem setFb_fb (f : BitVec 2048) : (s.setFb f).fb = f := rfl
@[simp] theorem setFb_mem (f : BitVec 2048) : (s.setFb f).mem = s.mem := rfl
@[simp] theorem setFb_fault (f : BitVec 2048) : (s.setFb f).fault = s.fault := rfl
@[simp] theorem setFb_straps (f : BitVec 2048) : (s.setFb f).straps = s.straps := rfl
@[simp] theorem setFb_draws (f : BitVec 2048) : (s.setFb f).draws = s.draws := rfl
@[simp] theorem setFb_v (f : BitVec 2048) : (s.setFb f).v = s.v := rfl
@[simp] theorem setFb_reg (f : BitVec 2048) (z : Reg) : (s.setFb f).reg z = s.reg z := rfl
@[simp] theorem setFb_byteAt (f : BitVec 2048) (c : Nat) : (s.setFb f).byteAt c = s.byteAt c := rfl
@[simp] theorem setFb_base (f : BitVec 2048) : (s.setFb f).base = s.base := rfl
@[simp] theorem setFb_memWf (f : BitVec 2048) : (s.setFb f).memWf = s.memWf := rfl

@[simp] theorem countDraw_idx : (s.countDraw).idx = s.idx := rfl
@[simp] theorem countDraw_pc : (s.countDraw).pc = s.pc := rfl
@[simp] theorem countDraw_stack : (s.countDraw).stack = s.stack := rfl
@[simp] theorem countDraw_sp : (s.countDraw).sp = s.sp := rfl
@[simp] theorem countDraw_dt : (s.countDraw).dt = s.dt := rfl
@[simp] theorem countDraw_st : (s.countDraw).st = s.st := rfl
@[simp] theorem countDraw_key : (s.countDraw).key = s.key := rfl
@[simp] theorem countDraw_fb : (s.countDraw).fb = s.fb := rfl
@[simp] theorem countDraw_mem : (s.countDraw).mem = s.mem := rfl
@[simp] theorem countDraw_fault : (s.countDraw).fault = s.fault := rfl
@[simp] theorem countDraw_straps : (s.countDraw).straps = s.straps := rfl
@[simp] theorem countDraw_draws : (s.countDraw).draws = s.draws + 1 := rfl
@[simp] theorem countDraw_v : (s.countDraw).v = s.v := rfl
@[simp] theorem countDraw_reg (z : Reg) : (s.countDraw).reg z = s.reg z := rfl
@[simp] theorem countDraw_cell (j : Nat) : (s.countDraw).cell j = s.cell j := rfl
@[simp] theorem countDraw_byteAt (c : Nat) : (s.countDraw).byteAt c = s.byteAt c := rfl
@[simp] theorem countDraw_base : (s.countDraw).base = s.base := rfl
@[simp] theorem countDraw_memWf : (s.countDraw).memWf = s.memWf := rfl

@[simp] theorem latchFault_idx (f : Fault) : (s.latchFault f).idx = s.idx := rfl
@[simp] theorem latchFault_pc (f : Fault) : (s.latchFault f).pc = s.pc := rfl
@[simp] theorem latchFault_stack (f : Fault) : (s.latchFault f).stack = s.stack := rfl
@[simp] theorem latchFault_sp (f : Fault) : (s.latchFault f).sp = s.sp := rfl
@[simp] theorem latchFault_dt (f : Fault) : (s.latchFault f).dt = s.dt := rfl
@[simp] theorem latchFault_st (f : Fault) : (s.latchFault f).st = s.st := rfl
@[simp] theorem latchFault_key (f : Fault) : (s.latchFault f).key = s.key := rfl
@[simp] theorem latchFault_fb (f : Fault) : (s.latchFault f).fb = s.fb := rfl
@[simp] theorem latchFault_mem (f : Fault) : (s.latchFault f).mem = s.mem := rfl
@[simp] theorem latchFault_fault (f : Fault) : (s.latchFault f).fault = some f := rfl
@[simp] theorem latchFault_straps (f : Fault) : (s.latchFault f).straps = s.straps := rfl
@[simp] theorem latchFault_draws (f : Fault) : (s.latchFault f).draws = s.draws := rfl
@[simp] theorem latchFault_v (f : Fault) : (s.latchFault f).v = s.v := rfl
@[simp] theorem latchFault_reg (f : Fault) (z : Reg) : (s.latchFault f).reg z = s.reg z := rfl
@[simp] theorem latchFault_cell (f : Fault) (j : Nat) : (s.latchFault f).cell j = s.cell j := rfl
@[simp] theorem latchFault_byteAt (f : Fault) (c : Nat) : (s.latchFault f).byteAt c = s.byteAt c := rfl
@[simp] theorem latchFault_base (f : Fault) : (s.latchFault f).base = s.base := rfl
@[simp] theorem latchFault_memWf (f : Fault) : (s.latchFault f).memWf = s.memWf := rfl

@[simp] theorem putByte_idx (a : Nat) (u : Byte) : (s.putByte a u).idx = s.idx := rfl
@[simp] theorem putByte_pc (a : Nat) (u : Byte) : (s.putByte a u).pc = s.pc := rfl
@[simp] theorem putByte_stack (a : Nat) (u : Byte) : (s.putByte a u).stack = s.stack := rfl
@[simp] theorem putByte_sp (a : Nat) (u : Byte) : (s.putByte a u).sp = s.sp := rfl
@[simp] theorem putByte_dt (a : Nat) (u : Byte) : (s.putByte a u).dt = s.dt := rfl
@[simp] theorem putByte_st (a : Nat) (u : Byte) : (s.putByte a u).st = s.st := rfl
@[simp] theorem putByte_key (a : Nat) (u : Byte) : (s.putByte a u).key = s.key := rfl
@[simp] theorem putByte_fb (a : Nat) (u : Byte) : (s.putByte a u).fb = s.fb := rfl
@[simp] theorem putByte_fault (a : Nat) (u : Byte) : (s.putByte a u).fault = s.fault := rfl
@[simp] theorem putByte_straps (a : Nat) (u : Byte) : (s.putByte a u).straps = s.straps := rfl
@[simp] theorem putByte_draws (a : Nat) (u : Byte) : (s.putByte a u).draws = s.draws := rfl
@[simp] theorem putByte_v (a : Nat) (u : Byte) : (s.putByte a u).v = s.v := rfl
@[simp] theorem putByte_reg (a : Nat) (u : Byte) (z : Reg) : (s.putByte a u).reg z = s.reg z := rfl
@[simp] theorem putByte_cell (a : Nat) (u : Byte) (j : Nat) : (s.putByte a u).cell j = s.cell j := rfl
@[simp] theorem putByte_base (a : Nat) (u : Byte) : (s.putByte a u).base = s.base := rfl

@[simp] theorem tick_idx : (s.tick).idx = s.idx := rfl
@[simp] theorem tick_pc : (s.tick).pc = s.pc := rfl
@[simp] theorem tick_stack : (s.tick).stack = s.stack := rfl
@[simp] theorem tick_sp : (s.tick).sp = s.sp := rfl
@[simp] theorem tick_dt : (s.tick).dt = tickByte s.dt := rfl
@[simp] theorem tick_st : (s.tick).st = tickByte s.st := rfl
@[simp] theorem tick_key : (s.tick).key = s.key := rfl
@[simp] theorem tick_fb : (s.tick).fb = s.fb := rfl
@[simp] theorem tick_mem : (s.tick).mem = s.mem := rfl
@[simp] theorem tick_fault : (s.tick).fault = s.fault := rfl
@[simp] theorem tick_straps : (s.tick).straps = s.straps := rfl
@[simp] theorem tick_draws : (s.tick).draws = s.draws := rfl
@[simp] theorem tick_v : (s.tick).v = s.v := rfl
@[simp] theorem tick_reg (z : Reg) : (s.tick).reg z = s.reg z := rfl
@[simp] theorem tick_cell (j : Nat) : (s.tick).cell j = s.cell j := rfl
@[simp] theorem tick_byteAt (c : Nat) : (s.tick).byteAt c = s.byteAt c := rfl
@[simp] theorem tick_base : (s.tick).base = s.base := rfl
@[simp] theorem tick_memWf : (s.tick).memWf = s.memWf := rfl

@[simp] theorem setReg_reg_same (x : Reg) (b : Byte) : (s.setReg x b).reg x = b := by
  simp [State.reg, State.setReg]

theorem setReg_reg (x z : Reg) (b : Byte) : (s.setReg x b).reg z = if z = x then b else s.reg z := by
  simp only [State.reg, State.setReg, Vector.getElem_set, Fin.ext_iff, eq_comm (a := z.val)]

theorem setReg_reg_ne {x z : Reg} (h : z ≠ x) (b : Byte) : (s.setReg x b).reg z = s.reg z := by
  rw [setReg_reg, if_neg h]

@[simp] theorem setFb_cell (f : BitVec 2048) (i : Nat) : (s.setFb f).cell i = f.getLsbD i := rfl

/-- Skipping is one advance or none. -/
theorem skipIf_eq (c : Bool) : s.skipIf c = s.setPc (if c then s.pc + 2 else s.pc) := by
  cases c <;> rfl

@[simp] theorem advance_rewind : s.advance.rewind = s := by
  simp [State.advance, State.rewind, State.setPc]

/-- A fault taken in the execute phase restores the state before the step, but for the latch
(60_exceptions.md R204). -/
@[simp] theorem advance_takeFault (f : Fault) : s.advance.takeFault f = s.latchFault f := by
  simp [State.takeFault]

theorem finish_running (h : s.fault = none) : s.finish = s.tick := by simp [State.finish, h]

theorem finish_halted (h : s.fault ≠ none) : s.finish = s := by
  cases e : s.fault with
  | none => exact absurd e h
  | some f => simp [State.finish, e]

@[simp] theorem setFlagThenReg_reg_result (f : Byte) (x : Reg) (r : Byte) :
    ((s.setReg regF f).setReg x r).reg x = r := setReg_reg_same _ x r

end Sys2Proof.Machine
end

