-- ==== Sys2Proof/Laws/Ops.lean ====
section
/-! SUPPORT. One lemma for each shared operation, saying all it can do; later proofs cite these. -/

namespace Sys2Proof.Machine

variable (s : State)

/-! ### Memory -/

theorem byteAt_putByte (a : Nat) (u : Byte) (c : Nat) :
    (s.putByte a u).byteAt c = if c = a then u else s.byteAt c := Memory.get_put s.mem a u c

theorem memWf_putByte {a : Nat} (u : Byte) (ha : a < memSize) (w : s.memWf = true) :
    (s.putByte a u).memWf = true := Memory.wf_put ha w

theorem memRead_eq (a : Nat) :
    s.memRead a = if a < memSize then .ok (s.byteAt a) else .error .addressOutOfRange := rfl

/-- Reading `n` bytes: all of them, or a fault when one of them lies outside memory. -/
theorem readBytes_eq (a n : Nat) :
    s.readBytes a n =
      if n = 0 ∨ a + n ≤ memSize then .ok ((List.range n).map (fun k => s.byteAt (a + k)))
      else .error .addressOutOfRange := by
  induction n generalizing a with
  | zero => rfl
  | succ n ih =>
    simp only [State.readBytes, State.memRead, ih]
    by_cases h1 : a < memSize
    · by_cases h2 : a + (n + 1) ≤ memSize
      · rw [if_pos h1, if_pos (by omega), if_pos (by omega), List.range_succ_eq_map]
        simp [List.map_map, Function.comp_def, Nat.add_assoc, Nat.add_comm 1]
      · rw [if_pos h1, if_neg (by omega), if_neg (by omega)]
    · rw [if_neg h1, if_neg (show ¬ (n + 1 = 0 ∨ a + (n + 1) ≤ memSize) by omega)]

/-- Storing bytes that all lie in memory: only memory changes, and it reads as the bytes say. -/
theorem writeBytes_fits (a : Nat) (bs : List Byte) (fits : bs = [] ∨ a + bs.length ≤ memSize) :
    ∃ m : Memory, s.writeBytes a bs = .ok { s with mem := m } ∧
      (∀ c, ({ s with mem := m } : State).byteAt c =
        if a ≤ c then bs.getD (c - a) (s.byteAt c) else s.byteAt c) ∧
      (s.memWf = true → ({ s with mem := m } : State).memWf = true) := by
  induction bs generalizing s a with
  | nil => exact ⟨s.mem, rfl, by intro c; simp [State.byteAt], id⟩
  | cons b bs ih =>
    have hlen : a + (bs.length + 1) ≤ memSize := by simpa using fits
    obtain ⟨m, h1, h2, h3⟩ := ih (s.putByte a b) (a + 1) (.inr (by omega))
    refine ⟨m, ?_, ?_, fun w => h3 (memWf_putByte s b (by omega) w)⟩
    · simp only [State.writeBytes, State.memWrite, if_pos (show a < memSize by omega)]
      exact h1
    · intro c
      refine (h2 c).trans ?_
      rw [byteAt_putByte]
      by_cases hc : a + 1 ≤ c
      · have e : c - a = (c - (a + 1)) + 1 := by omega
        rw [if_pos hc, if_neg (by omega), if_pos (by omega), e, List.getD_cons_succ]
      · rw [if_neg hc]
        by_cases hca : c = a
        · subst hca; simp
        · rw [if_neg hca, if_neg (by omega)]

/-- Storing bytes of which one lies outside memory faults. -/
theorem writeBytes_faults (a : Nat) (bs : List Byte) (some : bs ≠ []) (out : memSize < a + bs.length) :
    s.writeBytes a bs = .error .addressOutOfRange := by
  induction bs generalizing s a with
  | nil => exact absurd rfl some
  | cons b bs ih =>
    simp only [State.writeBytes, State.memWrite]
    by_cases h : a < memSize
    · rw [if_pos h]
      cases bs with
      | nil => simp at out; omega
      | cons c cs => exact ih _ (a + 1) (by simp) (by simp at out ⊢; omega)
    · rw [if_neg h]

/-- The fetch succeeds exactly when `PC <= 0xFFE` (40_engine_step.md R91). -/
theorem fetch_eq :
    fetch s = if s.pc.toNat ≤ 0xFFE then
      .ok (wordOfBytes (s.byteAt s.pc.toNat) (s.byteAt (s.pc.toNat + 1)))
    else .error .addressOutOfRange := by
  have size : memSize = 4096 := rfl
  simp only [fetch, State.memRead]
  by_cases h1 : s.pc.toNat < memSize
  · by_cases h2 : s.pc.toNat + 1 < memSize
    · rw [if_pos h1, if_pos h2, if_pos (by omega)]
    · rw [if_pos h1, if_neg h2, if_neg (by omega)]
  · rw [if_neg h1, if_neg (show ¬ s.pc.toNat ≤ 0xFFE by omega)]

/-! ### Registers -/

/-- Loading registers from `i` up: only registers change, and those in the range hold the bytes. -/
theorem setRegsFrom_eq (i : Nat) (bs : List Byte) :
    s.setRegsFrom i bs = { s with v := (s.setRegsFrom i bs).v } ∧
      ∀ z : Reg, (s.setRegsFrom i bs).reg z =
        if i ≤ z.val then bs.getD (z.val - i) (s.reg z) else s.reg z := by
  induction bs generalizing s i with
  | nil => exact ⟨rfl, by intro z; simp [State.setRegsFrom]⟩
  | cons b bs ih =>
    simp only [State.setRegsFrom]
    obtain ⟨h1, h2⟩ := ih (if h : i < 16 then s.setReg ⟨i, h⟩ b else s) (i + 1)
    refine ⟨?_, ?_⟩
    · rw [h1]; split <;> rfl
    · intro z
      rw [h2]
      by_cases hz : i + 1 ≤ z.val
      · have e : z.val - i = (z.val - (i + 1)) + 1 := by omega
        rw [if_pos hz, if_pos (by omega), e, List.getD_cons_succ]
        split
        · rw [setReg_reg_ne]; intro h; have := congrArg Fin.val h; simp at this; omega
        · rfl
      · rw [if_neg hz]
        by_cases hzi : i = z.val
        · have hi : i < 16 := by omega
          rw [dif_pos hi, if_pos (by omega)]
          have : z = ⟨i, hi⟩ := Fin.ext hzi.symm
          subst this; simp
        · rw [if_neg (by omega)]
          split
          · rw [setReg_reg_ne]; intro h; have := congrArg Fin.val h; simp at this; omega
          · rfl

theorem firstRegs_length (count : Nat) : (s.firstRegs count).length = min count 16 := by
  simp [State.firstRegs]

theorem firstRegs_getD (count k : Nat) (hk : k < 16) (d : Byte) :
    (s.firstRegs count).getD k d = if k < count then s.reg ⟨k, hk⟩ else d := by
  simp only [State.firstRegs, List.getD_eq_getElem?_getD, List.getElem?_take]
  split <;> simp [State.reg, hk]

theorem regCount_le (mode : RegRangeMode) (x : Reg) : regCount mode x ≤ 16 := by
  cases mode <;> simp only [regCount] <;> omega

/-! ### Faults and the end of a step -/

@[simp] theorem settle_ok (t : State) : settle s (.ok t) = .next t := rfl

@[simp] theorem settle_error (f : Fault) : settle s (.error f) = .next (s.takeFault f) := rfl

theorem pushPc_ok (h : s.sp.val < 16) :
    s.pushPc = .ok { s with stack := s.stack.set s.sp.val s.pc h, sp := ⟨s.sp.val + 1, by omega⟩ } := by
  simp [State.pushPc, h]

theorem pushPc_full (h : s.sp.val = 16) : s.pushPc = .error .stackFault := by
  simp [State.pushPc, h]

theorem popPc_ok (h : 0 < s.sp.val) :
    s.popPc = .ok { s with pc := s.stack[s.sp.val - 1]'(by omega), sp := ⟨s.sp.val - 1, by omega⟩ } := by
  simp [State.popPc, h]

theorem popPc_empty (h : s.sp.val = 0) : s.popPc = .error .stackFault := by
  simp [State.popPc, h]

theorem tickByte_toNat (b : Byte) : (tickByte b).toNat = b.toNat - 1 := by
  unfold tickByte
  by_cases h : b = 0
  · subst h; rfl
  · rw [if_neg h]
    have : b.toNat ≠ 0 := fun h0 => h (BitVec.eq_of_toNat_eq h0)
    rw [BitVec.toNat_sub]; have := b.isLt; simp; omega

theorem flagByte_toNat (b : Bool) : (flagByte b).toNat = b.toNat := by cases b <;> rfl

/-! ### The keypad -/

/-- The scan finds key `k` exactly when it is pressed and no lower key is. -/
theorem lowestKey_some (k : Nat) :
    s.lowestKey = some k ↔ ∃ h : k < 16, s.key[k] = true ∧ ∀ j, ∀ hj : j < k, s.key[j] = false := by
  have g : ∀ j, ∀ hj : j < 16, s.key.toList.getD j false = s.key[j] := by
    intro j hj; simp [List.getD_eq_getElem?_getD, hj]
  unfold State.lowestKey
  rw [List.find?_range_eq_some]
  constructor
  · rintro ⟨h1, h2, h3⟩
    have hk : k < 16 := by simpa using h2
    refine ⟨hk, by rw [← g k hk]; exact h1, fun j hj => ?_⟩
    have := h3 j hj
    rw [g j (by omega)] at this
    simpa using this
  · rintro ⟨hk, h1, h2⟩
    refine ⟨by rw [g k hk]; exact h1, by simpa using hk, fun j hj => ?_⟩
    rw [g j (by omega), h2 j hj]; rfl

/-- The scan finds nothing exactly when no key is pressed. -/
theorem lowestKey_none : s.lowestKey = none ↔ ∀ k, ∀ h : k < 16, s.key[k] = false := by
  have g : ∀ j, ∀ hj : j < 16, s.key.toList.getD j false = s.key[j] := by
    intro j hj; simp [List.getD_eq_getElem?_getD, hj]
  unfold State.lowestKey
  rw [List.find?_eq_none]
  constructor
  · intro h k hk
    have := h k (by simpa using hk)
    rw [g k hk] at this; simpa using this
  · intro h k hk
    have hk' : k < 16 := by simpa using hk
    rw [g k hk', h k hk']; simp

/-! ### The display -/

theorem toggleCell_getLsbD (acc : BitVec 2048 × Bool) (i j : Nat) (hj : j < 2048) :
    (toggleCell acc i).1.getLsbD j = (acc.1.getLsbD j ^^ decide (j = i)) := by
  simp only [toggleCell, BitVec.getLsbD_xor, BitVec.getLsbD_shiftLeft, BitVec.getLsbD_one]
  by_cases h : j = i
  · subst h; simp [hj]
  · have e : (!decide (j < i) && decide (j - i = 0)) = false := by
      by_cases h2 : j < i
      · simp [h2]
      · simp [show j - i ≠ 0 by omega]
    simp [h, hj, e]

theorem foldl_toggleCell (acc : BitVec 2048 × Bool) (cells : List Nat) (j : Nat) (hj : j < 2048) :
    (cells.foldl toggleCell acc).1.getLsbD j = (acc.1.getLsbD j ^^ decide (cells.count j % 2 = 1)) := by
  induction cells generalizing acc with
  | nil => simp
  | cons i cells ih =>
    rw [List.foldl_cons, ih, toggleCell_getLsbD acc i j hj, List.count_cons]
    by_cases h : j = i
    · subst h
      rcases Nat.mod_two_eq_zero_or_one (cells.count j) with e | e <;>
        simp [e, Nat.add_mod]
    · simp [h, show ¬ i = j from fun e => h e.symm]

/-- Drawing toggles a cell once for every occurrence in the list of cells. -/
theorem drawCells_cell (fb : BitVec 2048) (cells : List Nat) (j : Nat) (hj : j < 2048) :
    (drawCells fb cells).1.getLsbD j = (fb.getLsbD j ^^ decide (cells.count j % 2 = 1)) :=
  foldl_toggleCell (fb, false) cells j hj

theorem foldl_toggleCell_hit (acc : BitVec 2048 × Bool) (cells : List Nat) :
    (cells.foldl toggleCell acc).2 = true ↔ acc.2 = true ∨ ∃ before i after, cells = before ++ i :: after ∧
      (before.foldl toggleCell acc).1.getLsbD i = true := by
  induction cells generalizing acc with
  | nil => simp
  | cons c cells ih =>
    rw [List.foldl_cons, ih]
    constructor
    · rintro (h | ⟨before, i, after, rfl, h⟩)
      · simp only [toggleCell, Bool.or_eq_true] at h
        rcases h with h | h
        · exact .inl h
        · exact .inr ⟨[], c, cells, rfl, h⟩
      · exact .inr ⟨c :: before, i, after, rfl, h⟩
    · rintro (h | ⟨before, i, after, e, h⟩)
      · left; simp [toggleCell, h]
      · cases before with
        | nil =>
          obtain ⟨rfl, rfl⟩ := List.cons.inj e
          left; simp only [List.foldl_nil] at h; simp [toggleCell, h]
        | cons d before =>
          obtain ⟨rfl, rfl⟩ := List.cons.inj e
          exact .inr ⟨before, i, after, rfl, h⟩

/-- Drawing collides exactly when some listed cell is on at the moment its turn comes. -/
theorem drawCells_hit (fb : BitVec 2048) (cells : List Nat) :
    (drawCells fb cells).2 = true ↔ ∃ before i after, cells = before ++ i :: after ∧
      (drawCells fb before).1.getLsbD i = true := by
  simpa [drawCells] using foldl_toggleCell_hit (fb, false) cells

theorem cellIndex_lt (mode : DrawEdgeMode) (px py : Nat) : cellIndex mode px py < 2048 := by
  cases mode <;> simp only [cellIndex, displayHeight, displayWidth] <;> omega

/-- The cells of a sprite, row by row: row `r` lies `r` rows below the first. -/
theorem spriteCells_map_range (mode : DrawEdgeMode) (x0 py : Nat) (row : Nat → Byte) (n : Nat) :
    spriteCells mode x0 py ((List.range n).map row) =
      (List.range n).flatMap (fun r => rowCells mode x0 (py + r) (row r)) := by
  induction n generalizing py row with
  | zero => rfl
  | succ n ih =>
    have next := ih (py + 1) (row ∘ Nat.succ)
    simp only [List.range_succ_eq_map, List.map_cons, List.map_map, List.flatMap_cons, List.flatMap_map,
      spriteCells, Nat.add_zero, next, Function.comp_apply, Nat.succ_eq_add_one, Nat.add_assoc, Nat.add_comm 1]

theorem rowCells_lt {mode : DrawEdgeMode} {x0 py i : Nat} {row : Byte} (h : i ∈ rowCells mode x0 py row) :
    i < 2048 := by
  obtain ⟨c, -, rfl⟩ := List.mem_map.1 h
  exact cellIndex_lt mode _ _

theorem spriteCells_lt {mode : DrawEdgeMode} {x0 py i : Nat} {rows : List Byte}
    (h : i ∈ spriteCells mode x0 py rows) : i < 2048 := by
  induction rows generalizing py with
  | nil => cases h
  | cons row rows ih => exact (List.mem_append.1 h).elim rowCells_lt ih

end Sys2Proof.Machine
end

