-- ==== Sys2Proof/Laws/Frame.lean ====
section
/-! SUPPORT. Frames: how to prove one, and the frame of every update. -/

namespace Sys2Proof.Machine

variable {changed : Part → Prop} {s t u : State}

/-- A frame, field by field. -/
theorem OnlyChanges.of_fields (straps : t.straps = s.straps)
    (reg : ∀ x, ¬ changed (.reg x) → t.reg x = s.reg x)
    (idx : ¬ changed .idx → t.idx = s.idx) (pc : ¬ changed .pc → t.pc = s.pc)
    (slot : ∀ k, ¬ changed (.slot k) → t.stack[k.val] = s.stack[k.val])
    (sp : ¬ changed .sp → t.sp = s.sp) (dt : ¬ changed .dt → t.dt = s.dt) (st : ¬ changed .st → t.st = s.st)
    (key : ∀ k, ¬ changed (.key k) → t.key[k.val] = s.key[k.val])
    (cell : ∀ i, ¬ changed (.cell i) → t.cell i = s.cell i)
    (byte : ∀ a, ¬ changed (.byte a) → t.byteAt a = s.byteAt a)
    (fault : ¬ changed .fault → t.fault = s.fault) (draws : ¬ changed .draws → t.draws = s.draws) :
    OnlyChanges changed s t := by
  refine ⟨straps, fun p hp => ?_⟩
  cases p with
  | reg x => exact congrArg BitVec.toNat (reg x hp)
  | idx => exact congrArg BitVec.toNat (idx hp)
  | pc => exact congrArg BitVec.toNat (pc hp)
  | slot k => exact congrArg BitVec.toNat (slot k hp)
  | sp => exact congrArg Fin.val (sp hp)
  | dt => exact congrArg BitVec.toNat (dt hp)
  | st => exact congrArg BitVec.toNat (st hp)
  | key k => exact congrArg Bool.toNat (key k hp)
  | cell i => exact congrArg Bool.toNat (cell i hp)
  | byte a => exact congrArg BitVec.toNat (byte a hp)
  | fault => exact congrArg (fun f => (faultCode f).toNat) (fault hp)
  | draws => exact draws hp

/-- Nothing changes from a state to itself. -/
theorem OnlyChanges.refl : OnlyChanges changed s s := ⟨rfl, fun _ _ => rfl⟩

theorem OnlyChanges.trans (h1 : OnlyChanges changed s t) (h2 : OnlyChanges changed t u) :
    OnlyChanges changed s u :=
  ⟨h2.1.trans h1.1, fun p hp => (h2.2 p hp).trans (h1.2 p hp)⟩

/-- A frame may name more than changes. -/
theorem OnlyChanges.mono {less : Part → Prop} (h : OnlyChanges less s t) (sub : ∀ p, less p → changed p) :
    OnlyChanges changed s t :=
  ⟨h.1, fun p hp => h.2 p fun hl => hp (sub p hl)⟩

theorem onlyChanges_setReg (s : State) (x : Reg) (b : Byte) (h : changed (.reg x)) :
    OnlyChanges changed s (s.setReg x b) := by
  refine .of_fields rfl (fun z hz => setReg_reg_ne s (by rintro rfl; exact hz h) b) ?_ ?_ ?_ ?_ ?_ ?_ ?_ ?_ ?_ ?_ ?_ <;>
    (intros; rfl)

theorem onlyChanges_setIdx (s : State) (w : Word) (h : changed .idx) : OnlyChanges changed s (s.setIdx w) := by
  refine .of_fields rfl ?_ (fun hn => absurd h hn) ?_ ?_ ?_ ?_ ?_ ?_ ?_ ?_ ?_ ?_ <;> (intros; rfl)

theorem onlyChanges_setPc (s : State) (w : Word) (h : changed .pc) : OnlyChanges changed s (s.setPc w) := by
  refine .of_fields rfl ?_ ?_ (fun hn => absurd h hn) ?_ ?_ ?_ ?_ ?_ ?_ ?_ ?_ ?_ <;> (intros; rfl)

theorem onlyChanges_setDt (s : State) (b : Byte) (h : changed .dt) : OnlyChanges changed s (s.setDt b) := by
  refine .of_fields rfl ?_ ?_ ?_ ?_ ?_ (fun hn => absurd h hn) ?_ ?_ ?_ ?_ ?_ ?_ <;> (intros; rfl)

theorem onlyChanges_setSt (s : State) (b : Byte) (h : changed .st) : OnlyChanges changed s (s.setSt b) := by
  refine .of_fields rfl ?_ ?_ ?_ ?_ ?_ ?_ (fun hn => absurd h hn) ?_ ?_ ?_ ?_ ?_ <;> (intros; rfl)

theorem onlyChanges_setFb (s : State) (f : BitVec 2048) (h : ∀ i, changed (.cell i)) :
    OnlyChanges changed s (s.setFb f) := by
  refine .of_fields rfl ?_ ?_ ?_ ?_ ?_ ?_ ?_ ?_ (fun i hn => absurd (h i) hn) ?_ ?_ ?_ <;> (intros; rfl)

theorem onlyChanges_countDraw (s : State) (h : changed .draws) : OnlyChanges changed s s.countDraw := by
  refine .of_fields rfl ?_ ?_ ?_ ?_ ?_ ?_ ?_ ?_ ?_ ?_ ?_ (fun hn => absurd h hn) <;> (intros; rfl)

theorem onlyChanges_latchFault (s : State) (f : Fault) (h : changed .fault) :
    OnlyChanges changed s (s.latchFault f) := by
  refine .of_fields rfl ?_ ?_ ?_ ?_ ?_ ?_ ?_ ?_ ?_ ?_ (fun hn => absurd h hn) ?_ <;> (intros; rfl)

theorem onlyChanges_tick (s : State) (hd : changed .dt) (hs : changed .st) : OnlyChanges changed s s.tick := by
  refine .of_fields rfl ?_ ?_ ?_ ?_ ?_ (fun hn => absurd hd hn) (fun hn => absurd hs hn) ?_ ?_ ?_ ?_ ?_ <;>
    (intros; rfl)

/-- A new memory that reads as before outside the named bytes. -/
theorem onlyChanges_mem (s : State) (m : Memory)
    (h : ∀ a, ¬ changed (.byte a) → ({ s with mem := m } : State).byteAt a = s.byteAt a) :
    OnlyChanges changed s { s with mem := m } := by
  refine .of_fields rfl ?_ ?_ ?_ ?_ ?_ ?_ ?_ ?_ ?_ h ?_ ?_ <;> (intros; rfl)

/-- New registers that read as before outside the named ones. -/
theorem onlyChanges_regs (s : State) (v : Vector Byte 16)
    (h : ∀ x, ¬ changed (.reg x) → ({ s with v := v } : State).reg x = s.reg x) :
    OnlyChanges changed s { s with v := v } := by
  refine .of_fields rfl h ?_ ?_ ?_ ?_ ?_ ?_ ?_ ?_ ?_ ?_ ?_ <;> (intros; rfl)

theorem onlyChanges_setFlagThenReg (s : State) (f : Byte) (x : Reg) (r : Byte) (hx : changed (.reg x))
    (hf : changed (.reg regF)) : OnlyChanges changed s (s.setFlagThenReg f x r) :=
  (onlyChanges_setReg s regF f hf).trans (onlyChanges_setReg _ x r hx)

end Sys2Proof.Machine
end

