-- ==== Sys2Proof/Laws/Step.lean ====
section
/-! SUPPORT. What a step can be: one lemma for each case, and the inversion lemma of the step. -/

namespace Sys2Proof.Machine

variable {s t : State} {w : Word}

/-- A running machine with its fetch in range executes the decoded word on the advanced state. -/
theorem step_of_fetches (h : s.fetches w) : step s = endStep (exec (decodeWord w) s.advance) := by
  obtain ⟨h1, h2, rfl⟩ := h
  rw [State.running] at h1
  simp only [step, engineStep, h1, fetch_eq, if_pos h2, runWord]

/-- What `exec` answers, ended, is what the step answers. -/
theorem step_next_of_exec (h : s.fetches w) (e : exec (decodeWord w) s.advance = .next t) :
    step s = .next t.finish := by
  rw [step_of_fetches h, e]; rfl

theorem step_halted (h : ¬ s.running) : step s = .next s := by
  cases e : s.fault with
  | none => exact absurd e h
  | some f => simp only [step, engineStep, e]

theorem step_fetch_faults (h : s.running) (out : 0xFFE < s.pc.toNat) :
    step s = .next (s.latchFault .addressOutOfRange) := by
  rw [State.running] at h
  simp only [step, engineStep, h, fetch_eq, if_neg (show ¬ s.pc.toNat ≤ 0xFFE by omega)]

/-- A running machine either fetches some word or fetches outside memory. -/
theorem running_cases (h : s.running) : (∃ w, s.fetches w) ∨ 0xFFE < s.pc.toNat := by
  by_cases hp : s.pc.toNat ≤ 0xFFE
  · exact .inl ⟨_, h, hp, rfl⟩
  · exact .inr (by omega)

/-- The inversion of a step that answers a next state: the machine was halted and nothing moved, or the fetch
faulted and only the latch moved, or the fetched word was executed and the step ended. -/
theorem step_cases (h : step s = .next t) :
    (¬ s.running ∧ t = s) ∨
    (s.running ∧ 0xFFE < s.pc.toNat ∧ t = s.latchFault .addressOutOfRange) ∨
    (∃ w u, s.fetches w ∧ exec (decodeWord w) s.advance = .next u ∧ t = u.finish) := by
  by_cases hr : s.running
  · rcases running_cases hr with ⟨w, hw⟩ | out
    · refine .inr (.inr ?_)
      rw [step_of_fetches hw] at h
      cases e : exec (decodeWord w) s.advance with
      | next u => rw [e] at h; exact ⟨w, u, hw, e, (Host.Outcome.next.inj h).symm⟩
      | fault r => rw [e] at h; cases h
      | refused r => rw [e] at h; cases h
    · exact .inr (.inl ⟨hr, out, by rw [step_fetch_faults hr out] at h; exact (Host.Outcome.next.inj h).symm⟩)
  · exact .inl ⟨hr, by rw [step_halted hr] at h; exact (Host.Outcome.next.inj h).symm⟩

theorem finish_cases (u : State) : (u.running ∧ u.finish = u.tick) ∨ (¬ u.running ∧ u.finish = u) := by
  by_cases h : u.fault = none
  · exact .inl ⟨h, finish_running u h⟩
  · exact .inr ⟨h, finish_halted u h⟩

/-! ### The placing of a word -/

theorem fetchable_pc (s : State) : s.fetchable.pc.toNat ≤ 0xFFE := by
  have size : memSize = 4096 := rfl
  unfold State.fetchable
  split
  · omega
  · show 0x200 ≤ _; decide

/-- A placed word is the next one fetched. -/
theorem withWord_fetches (s : State) (w : Word) : (s.withWord w).fetches w := by
  refine ⟨rfl, fetchable_pc s, ?_⟩
  show wordOfBytes ((s.fetchable.placeWord s.fetchable.pc.toNat w).byteAt s.fetchable.pc.toNat)
    ((s.fetchable.placeWord s.fetchable.pc.toNat w).byteAt (s.fetchable.pc.toNat + 1)) = w
  simp only [State.placeWord, byteAt_putByte, if_neg (Nat.ne_of_lt (Nat.lt_succ_self _)), if_true]
  exact wordOfBytes_bytes w

/-- The table's numbering of a 16-bit word is the word's own. -/
theorem withFetchWord_sixteen (s : State) (w : Word) : s.withFetchWord 16 w.toNat = s.withWord w := by
  rw [State.withFetchWord, Nat.mod_eq_of_lt w.isLt, BitVec.ofNat_toNat, BitVec.setWidth_eq]

end Sys2Proof.Machine
end

