-- ==== Sys2Proof/Laws/Exec.lean ====
section
/-! SUPPORT. One lemma for each instruction that can fault: the state it ends in, and when. The other
instructions are one update of the state each, by definition. -/

namespace Sys2Proof.Machine

variable (s : State)

/-- `CALL` (42_control_flow.md R122). -/
theorem execCall2nnn_ok (nnn : Addr12) (h : s.sp.val < 16) :
    execCall2nnn nnn s = .next { s with stack := s.stack.set s.sp.val s.pc h, sp := ⟨s.sp.val + 1, by omega⟩, pc := addrWord nnn } := by
  simp only [execCall2nnn, pushPc_ok s h, settle_ok]; rfl

theorem execCall2nnn_full (nnn : Addr12) (h : s.sp.val = 16) :
    execCall2nnn nnn s = .next (s.takeFault .stackFault) := by
  simp only [execCall2nnn, pushPc_full s h, settle_error]

/-- `RET` (42_control_flow.md R123). -/
theorem execRet00EE_ok (h : 0 < s.sp.val) :
    execRet00EE s = .next { s with pc := s.stack[s.sp.val - 1]'(by omega), sp := ⟨s.sp.val - 1, by omega⟩ } := by
  simp only [execRet00EE, popPc_ok s h, settle_ok]

theorem execRet00EE_empty (h : s.sp.val = 0) : execRet00EE s = .next (s.takeFault .stackFault) := by
  simp only [execRet00EE, popPc_empty s h, settle_error]

/-- An instruction that stores bytes: all of them, only memory changing, or a fault. -/
theorem settle_writeBytes (a : Nat) (bs : List Byte) :
    (∃ m : Memory, (bs = [] ∨ a + bs.length ≤ memSize) ∧
      settle s (s.writeBytes a bs) = .next { s with mem := m } ∧
      (∀ c, ({ s with mem := m } : State).byteAt c =
        if a ≤ c then bs.getD (c - a) (s.byteAt c) else s.byteAt c) ∧
      (s.memWf = true → ({ s with mem := m } : State).memWf = true)) ∨
    (bs ≠ [] ∧ memSize < a + bs.length ∧
      settle s (s.writeBytes a bs) = .next (s.takeFault .addressOutOfRange)) := by
  by_cases h : bs = [] ∨ a + bs.length ≤ memSize
  · obtain ⟨m, h1, h2, h3⟩ := writeBytes_fits s a bs h
    exact .inl ⟨m, h, by rw [h1]; rfl, h2, h3⟩
  · have h' : bs ≠ [] ∧ memSize < a + bs.length := by
      constructor
      · exact fun e => h (.inl e)
      · have := fun e => h (.inr e); omega
    exact .inr ⟨h'.1, h'.2, by rw [writeBytes_faults s a bs h'.1 h'.2]; rfl⟩

/-- `LD Vx, [I]` (43_load_index_memory.md R148). -/
theorem execLdFx65_cases (x : Reg) :
    ((regCount s.straps.regRange x = 0 ∨ s.idx.toNat + regCount s.straps.regRange x ≤ memSize) ∧
      ∃ v : Vector Byte 16, execLdFx65 x s = .next { s with v := v } ∧
        ∀ z : Reg, ({ s with v := v } : State).reg z =
          if z.val < regCount s.straps.regRange x then s.byteAt (s.idx.toNat + z.val) else s.reg z) ∨
    (0 < regCount s.straps.regRange x ∧ memSize < s.idx.toNat + regCount s.straps.regRange x ∧
      execLdFx65 x s = .next (s.takeFault .addressOutOfRange)) := by
  by_cases h : regCount s.straps.regRange x = 0 ∨ s.idx.toNat + regCount s.straps.regRange x ≤ memSize
  · refine .inl ⟨h, ?_⟩
    let bytes := (List.range (regCount s.straps.regRange x)).map fun k => s.byteAt (s.idx.toNat + k)
    obtain ⟨h1, h2⟩ := setRegsFrom_eq s 0 bytes
    refine ⟨(s.setRegsFrom 0 bytes).v, ?_, fun z => ?_⟩
    · simp only [execLdFx65, readBytes_eq, if_pos h, settle_ok]
      exact congrArg _ h1
    · rw [← h1, h2, if_pos (Nat.zero_le _)]
      by_cases hz : z.val < regCount s.straps.regRange x
      · simp [bytes, List.getD_eq_getElem?_getD, hz]
      · rw [if_neg hz, List.getD_eq_default _ _ (by simp [bytes]; omega)]
  · refine .inr ⟨by omega, by omega, ?_⟩
    simp only [execLdFx65, readBytes_eq, if_neg h, settle_error]

/-- `DRW Vx, Vy, n` (45_display.md R183). -/
theorem execDrwDxyn_cases (x y : Reg) (n : Nibble) :
    ((n.toNat = 0 ∨ s.idx.toNat + n.toNat ≤ memSize) ∧
      execDrwDxyn x y n s = .next (s.drawSprite x y ((List.range n.toNat).map fun r => s.byteAt (s.idx.toNat + r)))) ∨
    (0 < n.toNat ∧ memSize < s.idx.toNat + n.toNat ∧
      execDrwDxyn x y n s = .next (s.takeFault .addressOutOfRange)) := by
  by_cases h : n.toNat = 0 ∨ s.idx.toNat + n.toNat ≤ memSize
  · exact .inl ⟨h, by simp only [execDrwDxyn, readBytes_eq, if_pos h, settle_ok]⟩
  · exact .inr ⟨by omega, by omega, by simp only [execDrwDxyn, readBytes_eq, if_neg h, settle_error]⟩

theorem decimalDigits_length (a : Byte) : (decimalDigits a).length = 3 := rfl

/-- `LD B, Vx` (43_load_index_memory.md R145). -/
theorem execLdFx33_cases (x : Reg) :
    (∃ m : Memory, s.idx.toNat + 2 < memSize ∧ execLdFx33 x s = .next { s with mem := m } ∧
      (∀ c, ({ s with mem := m } : State).byteAt c = if s.idx.toNat ≤ c then
        (decimalDigits (s.reg x)).getD (c - s.idx.toNat) (s.byteAt c) else s.byteAt c) ∧
      (s.memWf = true → ({ s with mem := m } : State).memWf = true)) ∨
    (memSize ≤ s.idx.toNat + 2 ∧ execLdFx33 x s = .next (s.takeFault .addressOutOfRange)) := by
  rcases settle_writeBytes s s.idx.toNat (decimalDigits (s.reg x)) with ⟨m, h, h1, h2, h3⟩ | ⟨_, h, h1⟩
  · refine .inl ⟨m, ?_, h1, h2, h3⟩
    rcases h with h | h
    · cases h
    · rw [decimalDigits_length] at h; omega
  · rw [decimalDigits_length] at h
    exact .inr ⟨by omega, h1⟩

theorem firstRegs_regCount_length (x : Reg) :
    (s.firstRegs (regCount s.straps.regRange x)).length = regCount s.straps.regRange x := by
  rw [firstRegs_length]; exact Nat.min_eq_left (regCount_le _ _)

/-- `LD [I], Vx` (43_load_index_memory.md R147). -/
theorem execLdFx55_cases (x : Reg) :
    (∃ m : Memory,
      (regCount s.straps.regRange x = 0 ∨ s.idx.toNat + regCount s.straps.regRange x ≤ memSize) ∧
      execLdFx55 x s = .next { s with mem := m } ∧
      (∀ c, ({ s with mem := m } : State).byteAt c = if s.idx.toNat ≤ c then
        (s.firstRegs (regCount s.straps.regRange x)).getD (c - s.idx.toNat) (s.byteAt c) else s.byteAt c) ∧
      (s.memWf = true → ({ s with mem := m } : State).memWf = true)) ∨
    (0 < regCount s.straps.regRange x ∧ memSize < s.idx.toNat + regCount s.straps.regRange x ∧
      execLdFx55 x s = .next (s.takeFault .addressOutOfRange)) := by
  have len := firstRegs_regCount_length s x
  rcases settle_writeBytes s s.idx.toNat (s.firstRegs (regCount s.straps.regRange x)) with
    ⟨m, h, h1, h2, h3⟩ | ⟨hne, h, h1⟩
  · refine .inl ⟨m, ?_, h1, h2, h3⟩
    rw [len] at h
    exact h.imp_left fun e => by rw [← len, e]; rfl
  · rw [len] at h
    exact .inr ⟨by have := List.length_pos_iff.2 hne; omega, h, h1⟩

end Sys2Proof.Machine
end

