-- ==== Sys2Proof/Laws/Inversion.lean ====
section
/-! SUPPORT. The inversion of `exec`: everything an instruction can do, said once. Proofs about every
instruction start here, or from `step_inversion`, and never unfold the executor. -/

namespace Sys2Proof.Machine

/-- When an instruction faults, and with which fault (60_exceptions.md R201, R202). -/
def Faults (i : Instr) (s : State) (f : Fault) : Prop :=
  match i with
  | .call2nnn _ => f = .stackFault ∧ s.sp.val = 16
  | .ret00EE => f = .stackFault ∧ s.sp.val = 0
  | .ldFx33 _ => f = .addressOutOfRange ∧ memSize ≤ s.idx.toNat + 2
  | .ldFx55 x | .ldFx65 x => f = .addressOutOfRange ∧ 0 < regCount s.straps.regRange x ∧
      memSize < s.idx.toNat + regCount s.straps.regRange x
  | .drwDxyn _ _ n => f = .addressOutOfRange ∧ 0 < n.toNat ∧ memSize < s.idx.toNat + n.toNat
  | _ => False

/-- What an instruction that does not fault does. -/
def Effect (i : Instr) (s t : State) : Prop :=
  match i with
  | .cls00E0 => t = s.setFb 0
  | .ret00EE => ∃ h : 0 < s.sp.val, t = { s with pc := s.stack[s.sp.val - 1]'(by omega), sp := ⟨s.sp.val - 1, by omega⟩ }
  | .sys0nnn _ | .nop _ => t = s
  | .jp1nnn nnn => t = s.setPc (addrWord nnn)
  | .call2nnn nnn => ∃ h : s.sp.val < 16,
      t = { s with stack := s.stack.set s.sp.val s.pc h, sp := ⟨s.sp.val + 1, by omega⟩, pc := addrWord nnn }
  | .se3xkk x kk => t = s.setPc (if s.reg x = kk then s.pc + 2 else s.pc)
  | .sne4xkk x kk => t = s.setPc (if s.reg x = kk then s.pc else s.pc + 2)
  | .se5xy0 x y => t = s.setPc (if s.reg x = s.reg y then s.pc + 2 else s.pc)
  | .sne9xy0 x y => t = s.setPc (if s.reg x = s.reg y then s.pc else s.pc + 2)
  | .ld6xkk x kk => t = s.setReg x kk
  | .add7xkk x kk => t = s.setReg x (s.reg x + kk)
  | .ld8xy0 x y => t = s.setReg x (s.reg y)
  | .or8xy1 x y => t = s.setReg x (s.reg x ||| s.reg y)
  | .and8xy2 x y => t = s.setReg x (s.reg x &&& s.reg y)
  | .xor8xy3 x y => t = s.setReg x (s.reg x ^^^ s.reg y)
  | .add8xy4 x y => t = s.setFlagThenReg (carryFlag (s.reg x) (s.reg y)) x (s.reg x + s.reg y)
  | .sub8xy5 x y => t = s.setFlagThenReg (greaterFlag (s.reg x) (s.reg y)) x (s.reg x - s.reg y)
  | .shr8xy6 x _ => t = s.setFlagThenReg (shrFlagByte s.straps.shrFlag (s.reg x)) x (s.reg x >>> 1)
  | .subn8xy7 x y => t = s.setFlagThenReg (greaterFlag (s.reg y) (s.reg x)) x (s.reg y - s.reg x)
  | .shl8xyE x _ => t = s.setFlagThenReg (shlFlagByte (s.reg x)) x (s.reg x <<< 1)
  | .ldAnnn nnn => t = s.setIdx (addrWord nnn)
  | .jpBnnn nnn => t = s.setPc (addrWord nnn + byteWord (s.reg 0))
  | .rndCxkk x kk => t = (s.setReg x (Config.rndByte s.draws &&& kk)).countDraw
  | .drwDxyn x y n => (n.toNat = 0 ∨ s.idx.toNat + n.toNat ≤ memSize) ∧
      t = s.drawSprite x y ((List.range n.toNat).map fun r => s.byteAt (s.idx.toNat + r))
  | .skpEx9E x => t = s.setPc (if s.keyOf (s.reg x) then s.pc + 2 else s.pc)
  | .sknpExA1 x => t = s.setPc (if s.keyOf (s.reg x) then s.pc else s.pc + 2)
  | .ldFx07 x => t = s.setReg x s.dt
  | .ldFx0A x => (∃ k, s.lowestKey = some k ∧ t = s.setReg x (BitVec.ofNat 8 k)) ∨
      (s.lowestKey = none ∧ t = s.setPc (s.pc - 2))
  | .ldFx15 x => t = s.setDt (s.reg x)
  | .ldFx18 x => t = s.setSt (s.reg x)
  | .addFx1E x => t = s.setIdx (s.idx + byteWord (s.reg x))
  | .ldFx29 x => t = s.setIdx (glyphAddress (s.reg x))
  | .ldFx33 x => ∃ m : Memory, s.idx.toNat + 2 < memSize ∧ t = { s with mem := m } ∧
      (∀ c, ({ s with mem := m } : State).byteAt c = if s.idx.toNat ≤ c then
        (decimalDigits (s.reg x)).getD (c - s.idx.toNat) (s.byteAt c) else s.byteAt c) ∧
      (s.memWf = true → ({ s with mem := m } : State).memWf = true)
  | .ldFx55 x => ∃ m : Memory,
      (regCount s.straps.regRange x = 0 ∨ s.idx.toNat + regCount s.straps.regRange x ≤ memSize) ∧
      t = { s with mem := m } ∧
      (∀ c, ({ s with mem := m } : State).byteAt c = if s.idx.toNat ≤ c then
        (s.firstRegs (regCount s.straps.regRange x)).getD (c - s.idx.toNat) (s.byteAt c) else s.byteAt c) ∧
      (s.memWf = true → ({ s with mem := m } : State).memWf = true)
  | .ldFx65 x => ∃ v : Vector Byte 16,
      (regCount s.straps.regRange x = 0 ∨ s.idx.toNat + regCount s.straps.regRange x ≤ memSize) ∧
      t = { s with v := v } ∧
      ∀ z : Reg, ({ s with v := v } : State).reg z =
        if z.val < regCount s.straps.regRange x then s.byteAt (s.idx.toNat + z.val) else s.reg z

variable {i : Instr} {s t : State}

/-- A choice between the next instruction and the one after, written by its condition. -/
theorem next_skipIf_eq (s : State) (c : Bool) :
    (Host.Outcome.next (s.skipIf c) : Result) = .next (s.setPc (if c = true then s.pc + 2 else s.pc)) :=
  congrArg _ (skipIf_eq s c)

/-- Every instruction ends in a next state: it takes its fault, or has its effect. -/
theorem exec_total (i : Instr) (s : State) :
    ∃ t, exec i s = .next t ∧ ((∃ f, Faults i s f ∧ t = s.takeFault f) ∨ Effect i s t) := by
  cases i with
  | call2nnn nnn =>
    by_cases h : s.sp.val < 16
    · exact ⟨_, execCall2nnn_ok s nnn h, .inr ⟨h, rfl⟩⟩
    · have h : s.sp.val = 16 := by omega
      exact ⟨_, execCall2nnn_full s nnn h, .inl ⟨_, ⟨rfl, h⟩, rfl⟩⟩
  | ret00EE =>
    by_cases h : 0 < s.sp.val
    · exact ⟨_, execRet00EE_ok s h, .inr ⟨h, rfl⟩⟩
    · have h : s.sp.val = 0 := by omega
      exact ⟨_, execRet00EE_empty s h, .inl ⟨_, ⟨rfl, h⟩, rfl⟩⟩
  | ldFx33 x =>
    rcases execLdFx33_cases s x with ⟨m, h0, h1, h2⟩ | ⟨h0, h1⟩
    · exact ⟨_, h1, .inr ⟨m, h0, rfl, h2⟩⟩
    · exact ⟨_, h1, .inl ⟨_, ⟨rfl, h0⟩, rfl⟩⟩
  | ldFx55 x =>
    rcases execLdFx55_cases s x with ⟨m, h0, h1, h2⟩ | ⟨hp, h0, h1⟩
    · exact ⟨_, h1, .inr ⟨m, h0, rfl, h2⟩⟩
    · exact ⟨_, h1, .inl ⟨_, ⟨rfl, hp, h0⟩, rfl⟩⟩
  | ldFx65 x =>
    rcases execLdFx65_cases s x with ⟨h0, v, h1, h2⟩ | ⟨hp, h0, h1⟩
    · exact ⟨_, h1, .inr ⟨v, h0, rfl, h2⟩⟩
    · exact ⟨_, h1, .inl ⟨_, ⟨rfl, hp, h0⟩, rfl⟩⟩
  | drwDxyn x y n =>
    rcases execDrwDxyn_cases s x y n with ⟨h0, h1⟩ | ⟨hp, h0, h1⟩
    · exact ⟨_, h1, .inr ⟨h0, rfl⟩⟩
    · exact ⟨_, h1, .inl ⟨_, ⟨rfl, hp, h0⟩, rfl⟩⟩
  | ldFx0A x =>
    cases e : s.lowestKey with
    | some k => exact ⟨_, by simp only [exec, execLdFx0A, e], .inr (.inl ⟨k, e, rfl⟩)⟩
    | none => exact ⟨_, by simp only [exec, execLdFx0A, e]; rfl, .inr (.inr ⟨e, rfl⟩)⟩
  | se3xkk x kk => exact ⟨_, next_skipIf_eq s _, .inr (by simp [Effect])⟩
  | sne4xkk x kk => exact ⟨_, next_skipIf_eq s _, .inr (by simp [Effect])⟩
  | se5xy0 x y => exact ⟨_, next_skipIf_eq s _, .inr (by simp [Effect])⟩
  | sne9xy0 x y => exact ⟨_, next_skipIf_eq s _, .inr (by simp [Effect])⟩
  | skpEx9E x => exact ⟨_, next_skipIf_eq s _, .inr rfl⟩
  | sknpExA1 x => exact ⟨_, next_skipIf_eq s _, .inr (by cases h : s.keyOf (s.reg x) <;> simp [Effect, h])⟩
  | cls00E0 => exact ⟨_, rfl, .inr rfl⟩
  | sys0nnn nnn => exact ⟨_, rfl, .inr rfl⟩
  | jp1nnn nnn => exact ⟨_, rfl, .inr rfl⟩
  | ld6xkk x kk => exact ⟨_, rfl, .inr rfl⟩
  | add7xkk x kk => exact ⟨_, rfl, .inr rfl⟩
  | ld8xy0 x y => exact ⟨_, rfl, .inr rfl⟩
  | or8xy1 x y => exact ⟨_, rfl, .inr rfl⟩
  | and8xy2 x y => exact ⟨_, rfl, .inr rfl⟩
  | xor8xy3 x y => exact ⟨_, rfl, .inr rfl⟩
  | add8xy4 x y => exact ⟨_, rfl, .inr rfl⟩
  | sub8xy5 x y => exact ⟨_, rfl, .inr rfl⟩
  | shr8xy6 x y => exact ⟨_, rfl, .inr rfl⟩
  | subn8xy7 x y => exact ⟨_, rfl, .inr rfl⟩
  | shl8xyE x y => exact ⟨_, rfl, .inr rfl⟩
  | ldAnnn nnn => exact ⟨_, rfl, .inr rfl⟩
  | jpBnnn nnn => exact ⟨_, rfl, .inr rfl⟩
  | rndCxkk x kk => exact ⟨_, rfl, .inr rfl⟩
  | ldFx07 x => exact ⟨_, rfl, .inr rfl⟩
  | ldFx15 x => exact ⟨_, rfl, .inr rfl⟩
  | ldFx18 x => exact ⟨_, rfl, .inr rfl⟩
  | addFx1E x => exact ⟨_, rfl, .inr rfl⟩
  | ldFx29 x => exact ⟨_, rfl, .inr rfl⟩
  | nop w => exact ⟨_, rfl, .inr rfl⟩

/-- If an instruction answers a next state, it has taken its fault or had its effect. -/
theorem exec_inversion (h : exec i s = .next t) :
    (∃ f, Faults i s f ∧ t = s.takeFault f) ∨ Effect i s t := by
  obtain ⟨u, h1, h2⟩ := exec_total i s
  rw [h1] at h
  cases h
  exact h2

/-- No effect touches the latch: faults do. -/
theorem Effect.fault_eq (h : Effect i s t) : t.fault = s.fault := by
  cases i <;> simp only [Effect] at h <;>
    first
    | (subst h; rfl)
    | (rcases h with ⟨_, _, rfl⟩ | ⟨_, rfl⟩ <;> rfl)
    | (obtain ⟨_, rfl⟩ := h; rfl)
    | (obtain ⟨_, _, rfl, _⟩ := h; rfl)

/-- The inversion of a step that answers a next state, down to what the instruction does. -/
theorem step_inversion (h : step s = .next t) :
    (¬ s.running ∧ t = s) ∨
    (s.running ∧ 0xFFE < s.pc.toNat ∧ t = s.latchFault .addressOutOfRange) ∨
    (∃ w f, s.fetches w ∧ Faults (decodeWord w) s f ∧ t = s.latchFault f) ∨
    (∃ w u, s.fetches w ∧ Effect (decodeWord w) s.advance u ∧ u.running ∧ t = u.tick) := by
  rcases step_cases h with h | h | ⟨w, u, hw, he, rfl⟩
  · exact .inl h
  · exact .inr (.inl h)
  · rcases exec_inversion he with ⟨f, hf, rfl⟩ | he
    · refine .inr (.inr (.inl ⟨w, f, hw, hf, ?_⟩))
      rw [advance_takeFault]; rfl
    · have hu : u.running := (Effect.fault_eq he).trans hw.1
      exact .inr (.inr (.inr ⟨w, u, hw, he, hu, finish_running u hu⟩))

end Sys2Proof.Machine
end

