-- ==== Sys2Proof/Laws/PerInstr.lean ====
section
/-! SUPPORT. Statements about every instruction as syntax, one lemma per constructor. -/

namespace Sys2Proof

variable (w : Word) (op n : Nibble) (x y : Reg) (kk : Byte) (nnn : Addr12)

/-! ### Words under the masks of the opcode map -/

theorem wordXYN_mask : wordXYN op x y n &&& 0xF00F = wordXYN op 0 0 n := by
  refine BitVec.eq_of_getLsbD_eq fun i hi => ?_
  simp only [wordXYN, BitVec.getLsbD_and, BitVec.getLsbD_append]
  interval_cases i <;> simp [regBits]

theorem wordXYN_mask_class : wordXYN op x y n &&& 0xF000 = wordXYN op 0 0 0 := by
  refine BitVec.eq_of_getLsbD_eq fun i hi => ?_
  simp only [wordXYN, BitVec.getLsbD_and, BitVec.getLsbD_append]
  interval_cases i <;> simp [regBits]

theorem wordXKK_mask : wordXKK op x kk &&& 0xF0FF = wordXKK op 0 kk := by
  refine BitVec.eq_of_getLsbD_eq fun i hi => ?_
  simp only [wordXKK, BitVec.getLsbD_and, BitVec.getLsbD_append]
  interval_cases i <;> simp [regBits]

theorem wordXKK_mask_class : wordXKK op x kk &&& 0xF000 = wordXKK op 0 0 := by
  refine BitVec.eq_of_getLsbD_eq fun i hi => ?_
  simp only [wordXKK, BitVec.getLsbD_and, BitVec.getLsbD_append]
  interval_cases i <;> simp [regBits]

theorem wordNNN_mask_class : wordNNN op nnn &&& 0xF000 = wordNNN op 0 := by
  refine BitVec.eq_of_getLsbD_eq fun i hi => ?_
  simp only [wordNNN, BitVec.getLsbD_and, BitVec.getLsbD_append]
  interval_cases i <;> simp

theorem ones4 (b : BitVec 4) : b &&& 15#4 = b := BitVec.and_allOnes (x := b)

theorem ones8 (b : BitVec 8) : b &&& 255#8 = b := BitVec.and_allOnes (x := b)

theorem ones16 (b : BitVec 16) : b &&& 65535#16 = b := BitVec.and_allOnes (x := b)

variable {w} {bits : Word}

theorem opField_of_class (h : w &&& 0xF000 = bits) : opField w = opField bits := by
  subst h; simp [opField, BitVec.extractLsb'_and, ones4]

theorem fields_of_xy (h : w &&& 0xF00F = bits) : opField w = opField bits ∧ nField w = nField bits := by
  subst h; simp [opField, nField, BitVec.extractLsb'_and, ones4]

theorem fields_of_x (h : w &&& 0xF0FF = bits) : opField w = opField bits ∧ kkField w = kkField bits := by
  subst h; simp [opField, kkField, BitVec.extractLsb'_and, ones4, ones8]

namespace Laws.SelectsItsRow

/-- A well-formed instruction's word selects a row of the opcode map and is what that row builds; the word of
the fallback selects no row (30_encoding.md R74, R75). -/
def Statement (i : Instr) : Prop :=
  i.wellFormed = true →
    match i with
    | .nop w => ∀ r ∈ opcodeMap, r.selectedBy w = false
    | i => ∃ r ∈ opcodeMap, r.selectedBy (encode i) = true ∧ r.build (encode i) = i

/-- A row of the map that a word selects and that builds the instruction back. -/
theorem of_row {i : Instr} (r : OpcodeRow) (mem : r ∈ opcodeMap) (sel : encode i &&& r.mask = r.bits)
    (back : r.build (encode i) = i) : ∃ r ∈ opcodeMap, r.selectedBy (encode i) = true ∧ r.build (encode i) = i :=
  ⟨r, mem, by simpa [OpcodeRow.selectedBy] using sel, back⟩

theorem cls00E0 : Statement .cls00E0 := fun _ =>
  of_row ⟨0xFFFF, 0x00E0, fun _ => .cls00E0⟩ (by simp [opcodeMap, exactRows, classRows, xyRows, xRows]) rfl rfl

theorem ret00EE : Statement .ret00EE := fun _ =>
  of_row ⟨0xFFFF, 0x00EE, fun _ => .ret00EE⟩ (by simp [opcodeMap, exactRows, classRows, xyRows, xRows]) rfl rfl

theorem sys0nnn (nnn : Addr12) : Statement (.sys0nnn nnn) := fun _ =>
  of_row ⟨0xF000, 0x0000, fun w => .sys0nnn (nnnField w)⟩ (by simp [opcodeMap, exactRows, classRows, xyRows, xRows]) (by rw [encode, wordNNN_mask_class]; rfl) (by simp [encode])

theorem jp1nnn (nnn : Addr12) : Statement (.jp1nnn nnn) := fun _ =>
  of_row ⟨0xF000, 0x1000, fun w => .jp1nnn (nnnField w)⟩ (by simp [opcodeMap, exactRows, classRows, xyRows, xRows]) (by rw [encode, wordNNN_mask_class]; rfl) (by simp [encode])

theorem call2nnn (nnn : Addr12) : Statement (.call2nnn nnn) := fun _ =>
  of_row ⟨0xF000, 0x2000, fun w => .call2nnn (nnnField w)⟩ (by simp [opcodeMap, exactRows, classRows, xyRows, xRows]) (by rw [encode, wordNNN_mask_class]; rfl) (by simp [encode])

theorem se3xkk (x : Reg) (kk : Byte) : Statement (.se3xkk x kk) := fun _ =>
  of_row ⟨0xF000, 0x3000, fun w => .se3xkk (xField w) (kkField w)⟩ (by simp [opcodeMap, exactRows, classRows, xyRows, xRows]) (by rw [encode, wordXKK_mask_class]; rfl) (by simp [encode])

theorem sne4xkk (x : Reg) (kk : Byte) : Statement (.sne4xkk x kk) := fun _ =>
  of_row ⟨0xF000, 0x4000, fun w => .sne4xkk (xField w) (kkField w)⟩ (by simp [opcodeMap, exactRows, classRows, xyRows, xRows]) (by rw [encode, wordXKK_mask_class]; rfl) (by simp [encode])

theorem se5xy0 (x : Reg) (y : Reg) : Statement (.se5xy0 x y) := fun _ =>
  of_row ⟨0xF00F, 0x5000, fun w => .se5xy0 (xField w) (yField w)⟩ (by simp [opcodeMap, exactRows, classRows, xyRows, xRows]) (by rw [encode, wordXYN_mask]; rfl) (by simp [encode])

theorem ld6xkk (x : Reg) (kk : Byte) : Statement (.ld6xkk x kk) := fun _ =>
  of_row ⟨0xF000, 0x6000, fun w => .ld6xkk (xField w) (kkField w)⟩ (by simp [opcodeMap, exactRows, classRows, xyRows, xRows]) (by rw [encode, wordXKK_mask_class]; rfl) (by simp [encode])

theorem add7xkk (x : Reg) (kk : Byte) : Statement (.add7xkk x kk) := fun _ =>
  of_row ⟨0xF000, 0x7000, fun w => .add7xkk (xField w) (kkField w)⟩ (by simp [opcodeMap, exactRows, classRows, xyRows, xRows]) (by rw [encode, wordXKK_mask_class]; rfl) (by simp [encode])

theorem ld8xy0 (x : Reg) (y : Reg) : Statement (.ld8xy0 x y) := fun _ =>
  of_row ⟨0xF00F, 0x8000, fun w => .ld8xy0 (xField w) (yField w)⟩ (by simp [opcodeMap, exactRows, classRows, xyRows, xRows]) (by rw [encode, wordXYN_mask]; rfl) (by simp [encode])

theorem or8xy1 (x : Reg) (y : Reg) : Statement (.or8xy1 x y) := fun _ =>
  of_row ⟨0xF00F, 0x8001, fun w => .or8xy1 (xField w) (yField w)⟩ (by simp [opcodeMap, exactRows, classRows, xyRows, xRows]) (by rw [encode, wordXYN_mask]; rfl) (by simp [encode])

theorem and8xy2 (x : Reg) (y : Reg) : Statement (.and8xy2 x y) := fun _ =>
  of_row ⟨0xF00F, 0x8002, fun w => .and8xy2 (xField w) (yField w)⟩ (by simp [opcodeMap, exactRows, classRows, xyRows, xRows]) (by rw [encode, wordXYN_mask]; rfl) (by simp [encode])

theorem xor8xy3 (x : Reg) (y : Reg) : Statement (.xor8xy3 x y) := fun _ =>
  of_row ⟨0xF00F, 0x8003, fun w => .xor8xy3 (xField w) (yField w)⟩ (by simp [opcodeMap, exactRows, classRows, xyRows, xRows]) (by rw [encode, wordXYN_mask]; rfl) (by simp [encode])

theorem add8xy4 (x : Reg) (y : Reg) : Statement (.add8xy4 x y) := fun _ =>
  of_row ⟨0xF00F, 0x8004, fun w => .add8xy4 (xField w) (yField w)⟩ (by simp [opcodeMap, exactRows, classRows, xyRows, xRows]) (by rw [encode, wordXYN_mask]; rfl) (by simp [encode])

theorem sub8xy5 (x : Reg) (y : Reg) : Statement (.sub8xy5 x y) := fun _ =>
  of_row ⟨0xF00F, 0x8005, fun w => .sub8xy5 (xField w) (yField w)⟩ (by simp [opcodeMap, exactRows, classRows, xyRows, xRows]) (by rw [encode, wordXYN_mask]; rfl) (by simp [encode])

theorem shr8xy6 (x : Reg) (y : Reg) : Statement (.shr8xy6 x y) := fun _ =>
  of_row ⟨0xF00F, 0x8006, fun w => .shr8xy6 (xField w) (yField w)⟩ (by simp [opcodeMap, exactRows, classRows, xyRows, xRows]) (by rw [encode, wordXYN_mask]; rfl) (by simp [encode])

theorem subn8xy7 (x : Reg) (y : Reg) : Statement (.subn8xy7 x y) := fun _ =>
  of_row ⟨0xF00F, 0x8007, fun w => .subn8xy7 (xField w) (yField w)⟩ (by simp [opcodeMap, exactRows, classRows, xyRows, xRows]) (by rw [encode, wordXYN_mask]; rfl) (by simp [encode])

theorem shl8xyE (x : Reg) (y : Reg) : Statement (.shl8xyE x y) := fun _ =>
  of_row ⟨0xF00F, 0x800E, fun w => .shl8xyE (xField w) (yField w)⟩ (by simp [opcodeMap, exactRows, classRows, xyRows, xRows]) (by rw [encode, wordXYN_mask]; rfl) (by simp [encode])

theorem sne9xy0 (x : Reg) (y : Reg) : Statement (.sne9xy0 x y) := fun _ =>
  of_row ⟨0xF00F, 0x9000, fun w => .sne9xy0 (xField w) (yField w)⟩ (by simp [opcodeMap, exactRows, classRows, xyRows, xRows]) (by rw [encode, wordXYN_mask]; rfl) (by simp [encode])

theorem ldAnnn (nnn : Addr12) : Statement (.ldAnnn nnn) := fun _ =>
  of_row ⟨0xF000, 0xA000, fun w => .ldAnnn (nnnField w)⟩ (by simp [opcodeMap, exactRows, classRows, xyRows, xRows]) (by rw [encode, wordNNN_mask_class]; rfl) (by simp [encode])

theorem jpBnnn (nnn : Addr12) : Statement (.jpBnnn nnn) := fun _ =>
  of_row ⟨0xF000, 0xB000, fun w => .jpBnnn (nnnField w)⟩ (by simp [opcodeMap, exactRows, classRows, xyRows, xRows]) (by rw [encode, wordNNN_mask_class]; rfl) (by simp [encode])

theorem rndCxkk (x : Reg) (kk : Byte) : Statement (.rndCxkk x kk) := fun _ =>
  of_row ⟨0xF000, 0xC000, fun w => .rndCxkk (xField w) (kkField w)⟩ (by simp [opcodeMap, exactRows, classRows, xyRows, xRows]) (by rw [encode, wordXKK_mask_class]; rfl) (by simp [encode])

theorem drwDxyn (x : Reg) (y : Reg) (n : Nibble) : Statement (.drwDxyn x y n) := fun _ =>
  of_row ⟨0xF000, 0xD000, fun w => .drwDxyn (xField w) (yField w) (nField w)⟩ (by simp [opcodeMap, exactRows, classRows, xyRows, xRows]) (by rw [encode, wordXYN_mask_class]; rfl) (by simp [encode])

theorem skpEx9E (x : Reg) : Statement (.skpEx9E x) := fun _ =>
  of_row ⟨0xF0FF, 0xE09E, fun w => .skpEx9E (xField w)⟩ (by simp [opcodeMap, exactRows, classRows, xyRows, xRows]) (by rw [encode, wordXKK_mask]; rfl) (by simp [encode])

theorem sknpExA1 (x : Reg) : Statement (.sknpExA1 x) := fun _ =>
  of_row ⟨0xF0FF, 0xE0A1, fun w => .sknpExA1 (xField w)⟩ (by simp [opcodeMap, exactRows, classRows, xyRows, xRows]) (by rw [encode, wordXKK_mask]; rfl) (by simp [encode])

theorem ldFx07 (x : Reg) : Statement (.ldFx07 x) := fun _ =>
  of_row ⟨0xF0FF, 0xF007, fun w => .ldFx07 (xField w)⟩ (by simp [opcodeMap, exactRows, classRows, xyRows, xRows]) (by rw [encode, wordXKK_mask]; rfl) (by simp [encode])

theorem ldFx0A (x : Reg) : Statement (.ldFx0A x) := fun _ =>
  of_row ⟨0xF0FF, 0xF00A, fun w => .ldFx0A (xField w)⟩ (by simp [opcodeMap, exactRows, classRows, xyRows, xRows]) (by rw [encode, wordXKK_mask]; rfl) (by simp [encode])

theorem ldFx15 (x : Reg) : Statement (.ldFx15 x) := fun _ =>
  of_row ⟨0xF0FF, 0xF015, fun w => .ldFx15 (xField w)⟩ (by simp [opcodeMap, exactRows, classRows, xyRows, xRows]) (by rw [encode, wordXKK_mask]; rfl) (by simp [encode])

theorem ldFx18 (x : Reg) : Statement (.ldFx18 x) := fun _ =>
  of_row ⟨0xF0FF, 0xF018, fun w => .ldFx18 (xField w)⟩ (by simp [opcodeMap, exactRows, classRows, xyRows, xRows]) (by rw [encode, wordXKK_mask]; rfl) (by simp [encode])

theorem addFx1E (x : Reg) : Statement (.addFx1E x) := fun _ =>
  of_row ⟨0xF0FF, 0xF01E, fun w => .addFx1E (xField w)⟩ (by simp [opcodeMap, exactRows, classRows, xyRows, xRows]) (by rw [encode, wordXKK_mask]; rfl) (by simp [encode])

theorem ldFx29 (x : Reg) : Statement (.ldFx29 x) := fun _ =>
  of_row ⟨0xF0FF, 0xF029, fun w => .ldFx29 (xField w)⟩ (by simp [opcodeMap, exactRows, classRows, xyRows, xRows]) (by rw [encode, wordXKK_mask]; rfl) (by simp [encode])

theorem ldFx33 (x : Reg) : Statement (.ldFx33 x) := fun _ =>
  of_row ⟨0xF0FF, 0xF033, fun w => .ldFx33 (xField w)⟩ (by simp [opcodeMap, exactRows, classRows, xyRows, xRows]) (by rw [encode, wordXKK_mask]; rfl) (by simp [encode])

theorem ldFx55 (x : Reg) : Statement (.ldFx55 x) := fun _ =>
  of_row ⟨0xF0FF, 0xF055, fun w => .ldFx55 (xField w)⟩ (by simp [opcodeMap, exactRows, classRows, xyRows, xRows]) (by rw [encode, wordXKK_mask]; rfl) (by simp [encode])

theorem ldFx65 (x : Reg) : Statement (.ldFx65 x) := fun _ =>
  of_row ⟨0xF0FF, 0xF065, fun w => .ldFx65 (xField w)⟩ (by simp [opcodeMap, exactRows, classRows, xyRows, xRows]) (by rw [encode, wordXKK_mask]; rfl) (by simp [encode])

theorem nop (w : Word) : Statement (.nop w) := by
  intro wf r hr
  have wf : unmatchedWord w = true := wf
  refine Bool.eq_false_iff.2 fun sel => ?_
  have sel : w &&& r.mask = r.bits := by simpa [OpcodeRow.selectedBy] using sel
  simp only [opcodeMap, List.mem_append] at hr
  obtain ((hr | hr) | hr) | hr := hr
  · simp only [exactRows, List.mem_cons, List.not_mem_nil, or_false] at hr
    rcases hr with rfl | rfl <;>
      (rw [show w &&& (0xFFFF : Word) = w from ones16 w] at sel; subst sel; exact absurd wf (by decide))
  · simp only [classRows, List.mem_cons, List.not_mem_nil, or_false] at hr
    rcases hr with rfl | rfl | rfl | rfl | rfl | rfl | rfl | rfl | rfl | rfl | rfl <;>
      (rw [unmatchedWord, opField_of_class sel] at wf; exact Bool.false_ne_true wf)
  · simp only [xyRows, List.mem_cons, List.not_mem_nil, or_false] at hr
    rcases hr with rfl | rfl | rfl | rfl | rfl | rfl | rfl | rfl | rfl | rfl | rfl <;>
      (rw [unmatchedWord, (fields_of_xy sel).1, (fields_of_xy sel).2] at wf; exact Bool.false_ne_true wf)
  · simp only [xRows, List.mem_cons, List.not_mem_nil, or_false] at hr
    rcases hr with rfl | rfl | rfl | rfl | rfl | rfl | rfl | rfl | rfl | rfl | rfl <;>
      (rw [unmatchedWord, (fields_of_x sel).1, (fields_of_x sel).2] at wf; exact Bool.false_ne_true wf)

end Laws.SelectsItsRow

end Sys2Proof
end

