-- ==== Sys2Proof/Tests/Slice0.lean ====
section
/-! SUPPORT. The model's own tests: the well-formedness checks, decoding by words written out from the opcode
map, one step of every instruction, and for every obligation with hypotheses a state that meets them. Expected
values are those of spec/95_test_vectors.md and 30_encoding.md R81. -/

namespace Sys2Proof.Tests

open Sys2Proof.Machine

/-! ### Small states -/

/-- The reset state with some registers written. -/
def pre (regs : List (Reg × Byte)) : State := regs.foldl (fun s r => s.setReg r.1 r.2) State.reset

/-- Bytes stored from an address on. -/
def bytes (s : State) (a : Nat) (bs : List Byte) : State := (bs.zipIdx a).foldl (fun s b => s.putByte b.2 b.1) s

/-- A state with `k` occupied slots, all holding `w`. -/
def nested (s : State) (k : Fin 17) (w : Word) : State := { s with sp := k, stack := Vector.replicate 16 w }

/-- A state with one key pressed. -/
def pressed (s : State) (k : Fin 16) : State := { s with key := s.key.set k.val true }

/-- A state in other range, shift and edge modes. -/
def withModes (s : State) (shr : ShrFlagMode) (range : RegRangeMode) (edge : DrawEdgeMode) : State :=
  { s with straps := { s.straps with shrFlag := shr, regRange := range, drawEdge := edge } }

/-- The registers `V0` to `V15` holding 1 to 16. -/
def counted : State :=
  { State.reset with v := #v[1, 2, 3, 4, 5, 6, 7, 8, 9, 10, 11, 12, 13, 14, 15, 16] }

/-- One step of `s` on the word `w`, and a check of the state it answers. -/
def steps (w : Word) (s : State) (check : State → Bool) : Bool :=
  match step (s.withWord w) with
  | .next t => check t
  | .fault _ => false
  | .refused _ => false

/-- The bytes from an address on. -/
def bytesAt (s : State) (a n : Nat) : List Byte := (List.range n).map (fun k => s.byteAt (a + k))

/-- Exactly these cells are on. -/
def lit (s : State) (cells : List Nat) : Bool := s.fb == cells.foldl (fun f i => f ||| (1#2048 <<< i)) 0

/-! ### Well-formedness: an ill-formed term for each check -/

theorem test_wf_sys_is_not_cls : (Instr.sys0nnn 0x0E0).wellFormed = false := by decide
theorem test_wf_sys_is_not_ret : (Instr.sys0nnn 0x0EE).wellFormed = false := by decide
theorem test_wf_nop_class5 : (Instr.nop 0x5120).wellFormed = false := by decide
theorem test_wf_nop_class8 : (Instr.nop 0x812E).wellFormed = false := by decide
theorem test_wf_nop_class9 : (Instr.nop 0x9120).wellFormed = false := by decide
theorem test_wf_nop_classE : (Instr.nop 0xE19E).wellFormed = false := by decide
theorem test_wf_nop_classF : (Instr.nop 0xF165).wellFormed = false := by decide
theorem test_wf_nop_other : (Instr.nop 0x1234).wellFormed = false := by decide
theorem test_wf_accepts : (Instr.sys0nnn 0x0E1).wellFormed = true ∧ (Instr.nop 0x5121).wellFormed = true ∧
    (Instr.nop 0xFFFF).wellFormed = true := by decide

/-! ### Decoding (30_encoding.md R81), bit by bit for one word of each format -/

theorem test_decode_fixed_bits : decodeWord 0b0000000011100000#16 = .cls00E0 := by decide
theorem test_decode_nnn_bits : decodeWord 0b0001001000110100#16 = .jp1nnn 0x234 := by decide
theorem test_decode_xkk_bits : decodeWord 0b0011101001111111#16 = .se3xkk 10 0x7F := by decide
theorem test_decode_xy_bits : decodeWord 0b1000000100100101#16 = .sub8xy5 1 2 := by decide
theorem test_decode_xyn_bits : decodeWord 0b1101000100100101#16 = .drwDxyn 1 2 5 := by decide
theorem test_decode_x_bits : decodeWord 0b1111000101010101#16 = .ldFx55 1 := by decide
theorem test_decode_class0 : [0x00E0, 0x00EE, 0x0000, 0x00E1, 0x0FFF].map decodeWord =
    [.cls00E0, .ret00EE, .sys0nnn 0, .sys0nnn 0x0E1, .sys0nnn 0xFFF] := by decide
theorem test_decode_control : [0x1234, 0x2ABC, 0x3A7F, 0x4B00, 0x5120, 0x9120, 0xB123].map decodeWord =
    [.jp1nnn 0x234, .call2nnn 0xABC, .se3xkk 10 0x7F, .sne4xkk 11 0, .se5xy0 1 2, .sne9xy0 1 2, .jpBnnn 0x123] := by
  decide
theorem test_decode_alu : [0x7D01, 0x8121, 0x8122, 0x8123, 0x8124, 0x8125, 0x8126, 0x8127, 0x812E].map decodeWord =
    [.add7xkk 13 1, .or8xy1 1 2, .and8xy2 1 2, .xor8xy3 1 2, .add8xy4 1 2, .sub8xy5 1 2, .shr8xy6 1 2, .subn8xy7 1 2,
      .shl8xyE 1 2] := by decide
theorem test_decode_load : [0x6CFF, 0x8120, 0xA123, 0xF11E, 0xF129, 0xF133, 0xF155, 0xF165].map decodeWord =
    [.ld6xkk 12 0xFF, .ld8xy0 1 2, .ldAnnn 0x123, .addFx1E 1, .ldFx29 1, .ldFx33 1, .ldFx55 1, .ldFx65 1] := by decide
theorem test_decode_timer_key : [0xC10F, 0xE19E, 0xE1A1, 0xF107, 0xF10A, 0xF115, 0xF118].map decodeWord =
    [.rndCxkk 1 0x0F, .skpEx9E 1, .sknpExA1 1, .ldFx07 1, .ldFx0A 1, .ldFx15 1, .ldFx18 1] := by decide
theorem test_decode_display : [0xD125, 0xD120].map decodeWord = [.drwDxyn 1 2 5, .drwDxyn 1 2 0] := by decide
theorem test_decode_unmatched :
    [0x5121, 0x8128, 0x812D, 0x812F, 0x912F, 0xE19F, 0xE100, 0xF100, 0xF175, 0xF185, 0xFFFF].all
      (fun w => decodeWord w == .nop w) = true := by decide
/-- 2.1: `MEM[0x200] = 0x12, MEM[0x201] = 0x34` is `JP 0x234`. -/
theorem test_decode_bytes : decodeBytes [0x12, 0x34, 0x56] = .ok (.jp1nnn 0x234, [0x56]) := by decide
theorem test_decode_truncated : decodeBytes [0x12] = .error .truncated := by decide
theorem test_decode_table_word : decodeTableWord 16 0x8124 = some (.add8xy4 1 2) := by decide
theorem test_encode : encode (.drwDxyn 1 2 5) = 0xD125 ∧ encode (.shl8xyE 1 2) = 0x812E := by decide

/-! ### No-ops -/

/-- S6, on the all-zero word and on `5121`. -/
theorem test_sys_ticks : steps 0x0000 { State.reset with dt := 5, st := 2 }
    (fun t => t.dt == 4 && t.st == 1 && t.pc == 0x202) = true := by decide
theorem test_nop_ticks : steps 0x5121 { State.reset with dt := 0 } (fun t => t.dt == 0 && t.pc == 0x202) = true := by decide

/-! ### Arithmetic, logic, shifts (2.2) -/

theorem test_add_imm_wraps : steps 0x7320 (pre [(3, 0xF0), (15, 7)]) (fun t => t.reg 3 == 0x10 && t.reg 15 == 7) = true := by decide
theorem test_add_imm_flag_register : steps 0x7F01 (pre [(15, 0xFF)]) (fun t => t.reg 15 == 0) = true := by decide
theorem test_or : steps 0x8121 (pre [(1, 0x0F), (2, 0xF0), (15, 9)]) (fun t => t.reg 1 == 0xFF && t.reg 15 == 9) = true := by decide
theorem test_and : steps 0x8122 (pre [(1, 0x3C), (2, 0x0F)]) (fun t => t.reg 1 == 0x0C) = true := by decide
theorem test_xor : steps 0x8123 (pre [(1, 0xFF), (2, 0x0F)]) (fun t => t.reg 1 == 0xF0) = true := by decide
theorem test_add_carry : steps 0x8124 (pre [(1, 0xFF), (2, 1)]) (fun t => t.reg 1 == 0 && t.reg 15 == 1) = true := by decide
theorem test_add_result_over_flag : steps 0x8F14 (pre [(15, 0xF0), (1, 0x20)]) (fun t => t.reg 15 == 0x10) = true := by decide
theorem test_sub_borrow : steps 0x8125 (pre [(1, 5), (2, 0x0A)]) (fun t => t.reg 1 == 0xFB && t.reg 15 == 0) = true := by decide
theorem test_sub_equal : steps 0x8125 (pre [(1, 7), (2, 7), (15, 1)]) (fun t => t.reg 1 == 0 && t.reg 15 == 0) = true := by decide
theorem test_subn : steps 0x8127 (pre [(1, 5), (2, 0x0A)]) (fun t => t.reg 1 == 5 && t.reg 15 == 1) = true := by decide
theorem test_subn_flag_register : steps 0x8F17 (pre [(15, 1), (1, 0x10)]) (fun t => t.reg 15 == 0x0F) = true := by decide
theorem test_shr_low_bit : steps 0x84A6 (withModes (pre [(4, 6), (10, 0xFF)]) .lowBit .inclusive .wrap)
    (fun t => t.reg 4 == 3 && t.reg 15 == 0 && t.reg 10 == 0xFF) = true := by decide
theorem test_shr_legacy : steps 0x8406 (withModes (pre [(4, 0xFF)]) .legacyValue .inclusive .wrap)
    (fun t => t.reg 4 == 0x7F && t.reg 15 == 0xFF) = true := by decide
theorem test_shl : steps 0x812E (pre [(1, 0x81)]) (fun t => t.reg 1 == 2 && t.reg 15 == 1) = true := by decide
theorem test_shl_flag_register : steps 0x8F0E (pre [(15, 0xC1)]) (fun t => t.reg 15 == 0x82) = true := by decide

/-! ### Control transfer (2.3) -/

theorem test_jp : steps 0x1ABC State.reset (fun t => t.pc == 0xABC) = true := by decide
theorem test_call : steps 0x2ABC (nested State.reset 15 0) (fun t => t.stack[15] == 0x202 && t.sp == 16 && t.pc == 0xABC) = true := by decide
theorem test_call_full : steps 0x2ABC (nested State.reset 16 7)
    (fun t => t.fault == some .stackFault && t.pc == 0x200 && t.sp == 16) = true := by decide
theorem test_ret : steps 0x00EE (nested State.reset 1 0x206) (fun t => t.sp == 0 && t.pc == 0x206 && t.stack[0] == 0x206) = true := by decide
theorem test_ret_empty : steps 0x00EE { State.reset with dt := 5 }
    (fun t => t.fault == some .stackFault && t.pc == 0x200 && t.dt == 5) = true := by decide
theorem test_jp_v0 : steps 0xBFFF (pre [(0, 0xFF)]) (fun t => t.pc == 0x10FE) = true := by decide
theorem test_se_imm : steps 0x3F01 (pre [(15, 1)]) (fun t => t.pc == 0x204) = true := by decide
theorem test_sne_imm : steps 0x4210 (pre [(2, 0x10)]) (fun t => t.pc == 0x202) = true := by decide
theorem test_se_reg : steps 0x5120 (pre [(1, 7), (2, 8)]) (fun t => t.pc == 0x202) = true := by decide
theorem test_sne_reg : steps 0x9120 (pre [(1, 7), (2, 8)]) (fun t => t.pc == 0x204) = true := by decide

/-! ### Loads, index register, memory (2.4) -/

theorem test_ld_imm : steps 0x6CFF State.reset (fun t => t.reg 12 == 0xFF) = true := by decide
theorem test_ld_reg : steps 0x8120 (pre [(2, 0x5A)]) (fun t => t.reg 1 == 0x5A) = true := by decide
theorem test_ld_index : steps 0xAFFF State.reset (fun t => t.idx == 0xFFF) = true := by decide
theorem test_add_index_wraps : steps 0xF21E ((pre [(2, 1), (15, 7)]).setIdx 0xFFFF) (fun t => t.idx == 0 && t.reg 15 == 7) = true := by decide
theorem test_glyph_low_nibble : steps 0xF029 (pre [(0, 0x1A)]) (fun t => t.idx == 0x082) = true := by decide
theorem test_digits : steps 0xF333 ((pre [(3, 42)]).setIdx 0xFFD) (fun t => bytesAt t 0xFFD 3 == [0, 4, 2] && t.idx == 0xFFD) = true := by decide
theorem test_digits_outside : steps 0xF333 ((pre [(3, 42)]).setIdx 0xFFE)
    (fun t => t.fault == some .addressOutOfRange && bytesAt t 0xFFE 2 == [0, 0] && t.pc == 0x200) = true := by decide
theorem test_dump_exclusive : steps 0xFF55 (withModes (counted.setIdx 0xFF1) .lowBit .exclusive .wrap)
    (fun t => bytesAt t 0xFF1 15 == [1, 2, 3, 4, 5, 6, 7, 8, 9, 10, 11, 12, 13, 14, 15]) = true := by decide
theorem test_dump_inclusive_outside : steps 0xFF55 (counted.setIdx 0xFF1)
    (fun t => t.fault == some .addressOutOfRange && bytesAt t 0xFF1 2 == [0, 0]) = true := by decide
theorem test_load_inclusive : steps 0xF265 (bytes ((pre [(2, 0x77)]).setIdx 0x300) 0x300 [0xAA, 0xBB, 0xCC])
    (fun t => t.reg 0 == 0xAA && t.reg 1 == 0xBB && t.reg 2 == 0xCC && t.idx == 0x300) = true := by decide
theorem test_load_exclusive : steps 0xF265
    (withModes (bytes (counted.setIdx 0xFFE) 0xFFE [0xAA, 0xBB]) .lowBit .exclusive .wrap)
    (fun t => t.reg 0 == 0xAA && t.reg 1 == 0xBB && t.reg 2 == 3) = true := by decide

/-! ### Timers, keypad, random byte (2.5) -/

theorem test_ld_dt : steps 0xF015 (pre [(0, 0x0A)]) (fun t => t.dt == 9) = true := by decide
theorem test_ld_st : steps 0xF318 (pre [(3, 2)]) (fun t => t.st == 1) = true := by decide
theorem test_read_dt : steps 0xF207 { State.reset with dt := 5 } (fun t => t.reg 2 == 5 && t.dt == 4) = true := by decide
theorem test_key_wait_lowest : steps 0xF10A (pressed (pressed (pre [(1, 0xEE)]) 7) 3) (fun t => t.reg 1 == 3 && t.pc == 0x202) = true := by decide
theorem test_key_wait_retries : steps 0xF10A { pre [(1, 0xEE)] with dt := 3 }
    (fun t => t.reg 1 == 0xEE && t.pc == 0x200 && t.dt == 2) = true := by decide
theorem test_skp : steps 0xE19E (pressed (pre [(1, 0x13)]) 3) (fun t => t.pc == 0x204) = true := by decide
theorem test_sknp : steps 0xE1A1 (pressed (pre [(1, 0x13)]) 3) (fun t => t.pc == 0x202) = true := by decide
/-- `RND V3, 0x00` gives 0 whatever byte is drawn. -/
theorem test_rnd_zero_mask : ∃ t, exec (.rndCxkk 3 0) (pre [(3, 9)]) = .next t ∧ t.reg 3 = 0 :=
  ⟨_, rfl, (setReg_reg_same _ 3 _).trans BitVec.and_zero⟩

/-! ### Display (2.6) -/

theorem test_cls : steps 0x00E0 { pre [(15, 1)] with fb := 1#2048 <<< 5 } (fun t => lit t [] && t.reg 15 == 1) = true := by decide +kernel
theorem test_draw_wrap : steps 0xD011 (bytes ((pre [(0, 0x7F), (1, 0x3F)]).setIdx 0x300) 0x300 [0xC0])
    (fun t => lit t [2047, 1984] && t.reg 15 == 0) = true := by decide +kernel
theorem test_draw_clamp : steps 0xD011
    (withModes (bytes ((pre [(0, 0x7F), (1, 0x3F)]).setIdx 0x300) 0x300 [0xC0]) .lowBit .inclusive .clamp)
    (fun t => lit t [] && t.reg 15 == 1) = true := by decide +kernel

/-! ### Faults and reset (2.7) -/

theorem test_fetch_outside : step (State.reset.setPc 0xFFF) = .next ((State.reset.setPc 0xFFF).latchFault .addressOutOfRange) := rfl
theorem test_halted : step { State.reset with fault := some .stackFault, dt := 5 } =
    .next { State.reset with fault := some .stackFault, dt := 5 } := rfl
theorem test_reset_halted : hostReset [] { State.reset with fault := some .addressOutOfRange } = .next State.reset := rfl
/-- From reset with nothing loaded the word at `0x200` is `SYS 0` (30_encoding.md R77). -/
theorem test_reset_runs_no_op : step State.reset = .next (State.reset.setPc 0x202) := rfl

/-! ### Witnesses: for every obligation with hypotheses, concrete values that meet all of them -/

/-- A checked step, as an answer of `step` on a state that fetches the word. -/
theorem steps_spec {w : Word} {s : State} {check : State → Bool} (h : steps w s check = true) :
    (s.withWord w).fetches w ∧ ∃ t, step (s.withWord w) = .next t ∧ check t = true := by
  refine ⟨withWord_fetches s w, ?_⟩
  unfold steps at h
  split at h
  · exact ⟨_, ‹_›, h⟩
  · cases h
  · cases h

/-- A step that ends with no fault latched. -/
theorem completes_spec {w : Word} {s : State} (h : steps w s (fun t => t.fault == none) = true) :
    (s.withWord w).fetches w ∧ ∃ t, step (s.withWord w) = .next t ∧ t.running := by
  obtain ⟨hw, t, ht, hc⟩ := steps_spec h
  exact ⟨hw, t, ht, beq_iff_eq.1 hc⟩

/-- A program image of `n` bytes. -/
def image (n : Nat) : List Byte := List.replicate n 0xFF

theorem image_length (n : Nat) : (image n).length = n := List.length_replicate

theorem witness_ResetClearsRegistersStackAndTimers :
    ([] : List Byte).length ≤ maxProgram ∧ (image 3584).length ≤ maxProgram := by
  simp only [image_length, List.length_nil]; decide

/-- The longest image, its last byte, and the first image too long; the boundaries of the three ranges of zeros. -/
theorem witness_ResetFillsMemoryAndClearsDisplayKeypadLatch :
    (image 3584).length ≤ maxProgram ∧ 3583 < (image 3584).length ∧
    maxProgram < (image 3585).length ∧
    (∀ a ∈ [0x000, 0x04F, 0x0A0, 0x1FF, 0x202], a < 0x050 ∨ (0x0A0 ≤ a ∧ a < 0x200) ∨ 0x200 + [0x12, 0x00].length ≤ a) := by
  simp only [image_length]; decide

theorem witness_KeySetAndKeyClearWriteOneKey : ∃ k : Nat, 15 < k := ⟨16, by decide⟩

theorem witness_DecodeOfEncodeIsTheInstruction : (Instr.sys0nnn 0x0E1).wellFormed = true ∧ (Instr.nop 0x5121).wellFormed = true ∧
    (Instr.drwDxyn 15 0 15).wellFormed = true := by decide

/-- An instruction that completes, and one that takes its fault. -/
theorem witness_StepRunsTheDecodedInstruction :
    ((pre [(1, 1)]).withWord 0x8124).fetches 0x8124 ∧ decodeWord 0x8124 = .add8xy4 1 2 ∧
    (State.reset.withWord 0x00EE).fetches 0x00EE ∧ decodeWord 0x00EE = .ret00EE :=
  ⟨withWord_fetches _ _, rfl, withWord_fetches _ _, rfl⟩

/-- The last address a fetch can start at, and the first it cannot. -/
theorem witness_FetchReadsBigEndianWordOrFaults :
    (State.reset.setPc 0xFFE).pc.toNat ≤ 0xFFE ∧ (State.reset.setPc 0xFFF).running ∧
    0xFFE < (State.reset.setPc 0xFFF).pc.toNat := ⟨by decide, rfl, by decide⟩

theorem witness_HaltedMachineIsFrozenUntilReset : ¬ (State.reset.latchFault .stackFault).running ∧
    (∃ t, keySet 3 (State.reset.latchFault .stackFault) = .next t) ∧
    (∃ t, hostReset [] (State.reset.latchFault .stackFault) = .next t) :=
  ⟨nofun, ⟨_, rfl⟩, ⟨_, rfl⟩⟩

theorem witness_FaultingStepChangesOnlyTheLatch :
    ∃ s t, s.running ∧ step s = .next t ∧ ¬ t.running :=
  ⟨State.reset.setPc 0xFFF, _, rfl, rfl, nofun⟩

/-- Both causes, and a step that raises nothing. -/
theorem witness_StackFaultOnFullCallOrEmptyReturnOnly :
    steps 0x2ABC (nested State.reset 16 0) (fun t => t.fault == some .stackFault) = true ∧
    steps 0x00EE State.reset (fun t => t.fault == some .stackFault) = true ∧
    steps 0x2ABC (nested State.reset 15 0) (fun t => t.fault == none) = true := by decide

/-- Every cause at its first address, and each access at its last address inside memory. -/
theorem witness_AddressFaultOnAccessOutsideMemoryOnly :
    [(0xF333, 0xFFE), (0xF255, 0xFFE), (0xF265, 0xFFE), (0xD012, 0xFFF)].all (fun p =>
      steps p.1 (State.reset.setIdx p.2) (fun t => t.fault == some .addressOutOfRange)) = true ∧
    [(0xF333, 0xFFD), (0xF255, 0xFFD), (0xF265, 0xFFD), (0xD010, 0x1000)].all (fun p =>
      steps p.1 (State.reset.setIdx p.2) (fun t => t.fault == none)) = true := by decide

/-- A word of every case of the statement, each completing. -/
theorem witness_TimersTickLastInEveryStep :
    [0xF215, 0xF218, 0xF207, 0x6000].all (fun w => steps w State.reset (fun t => t.fault == none)) = true := by decide

/-- A word of every case of the statement, each completing with one slot occupied. -/
theorem witness_ProgramCounterAfterEveryStep :
    [0x1000, 0x1FFF, 0x2FFF, 0xBFFF, 0x00EE, 0x3000, 0x3001, 0x4000, 0x4001, 0x5010, 0x9010, 0xE09E, 0xE0A1, 0xF00A,
      0x6000].all (fun w => steps w (nested State.reset 1 0x1000) (fun t => t.fault == none)) = true := by decide

theorem witness_InvariantHoldsAfterReset : (image 3584).length ≤ maxProgram := by
  rw [image_length]; decide

/-- The invariant's extreme values: a full stack of the greatest return address, `PC` past the end of memory. -/
theorem reset_meets_invariant : State.reset.Inv := ⟨rfl, by decide, nofun⟩

theorem witness_EveryStepKeepsTheInvariant :
    State.Inv ((nested State.reset 16 0x1000).setPc 0xFFE) ∧ ∃ t, step ((nested State.reset 16 0x1000).setPc 0xFFE) = .next t :=
  ⟨⟨rfl, by decide, fun k _ => by simp [nested]⟩, _, rfl⟩

theorem witness_EveryHostMoveKeepsTheInvariant :
    State.reset.Inv ∧ (∃ t, hostMove (.reset [0x12, 0x00]) State.reset = .next t) ∧
    (∃ t, hostMove (.keySet 15) State.reset = .next t) ∧ (∃ t, hostMove (.keyClear 0) State.reset = .next t) :=
  ⟨reset_meets_invariant, ⟨_, rfl⟩, ⟨_, rfl⟩, ⟨_, rfl⟩⟩

/-- A state after a reset, a step and a host move. -/
theorem witness_ReachableStatesMeetTheInvariant :
    Reachable (pressed ((State.resetWith defaultStraps [] 0).setPc 0x202) 3) :=
  .host (.keySet 3) (.step (.start defaultStraps [] 0 (by decide)) rfl) rfl

theorem witness_ConfigurationIsConstant :
    (∃ t, step State.reset = .next t) ∧ ∃ t, hostMove (.keySet 3) State.reset = .next t := ⟨⟨_, rfl⟩, _, rfl⟩

theorem witness_KeypadIsWrittenByTheHostOnly : ∃ t, step State.reset = .next t := ⟨_, rfl⟩

theorem witness_DisplayIsWrittenByClearAndDrawOnly :
    steps 0xD011 (bytes ((pre [(0, 1), (1, 1)]).setIdx 0x300) 0x300 [0x80]) (fun t => t.cell 65) = true ∧
    steps 0x00E0 { State.reset with fb := 1 } (fun t => !t.cell 0) = true := by decide +kernel

/-- Each store, at the last byte it reaches. -/
theorem witness_MemoryIsWrittenByTwoStoresOnly :
    steps 0xF333 ((pre [(3, 199)]).setIdx 0x300) (fun t => t.byteAt 0x302 != 0) = true ∧
    steps 0xF255 (counted.setIdx 0x300) (fun t => t.byteAt 0x302 != 0) = true := by decide

theorem witness_IndexAndStackWriters :
    [0xA300, 0xF129, 0xF11E].all (fun w => steps w (pre [(1, 3)]) (fun t => t.idx != 0)) = true ∧
    steps 0x00EE (nested State.reset 1 0x202) (fun t => t.sp == 0) = true ∧
    steps 0x2ABC State.reset (fun t => t.sp == 1 && t.stack[0] != 0) = true := by decide

/-- A writer of each kind that changes `VF`; the random byte is left out, its value being free. -/
theorem witness_FlagRegisterWriters :
    [0x8124, 0x8125, 0x8106, 0x8217, 0x810E, 0xD010, 0x6F01, 0x7F01, 0x8F10, 0x8F11, 0x8F12, 0x8F13, 0xFF07, 0xFF0A,
      0xFF65].all (fun w => steps w { pressed ((pre [(1, 0x81), (2, 0x80), (15, 2)]).setIdx 0x050) 3 with dt := 3 }
        (fun t => t.reg regF != 2)) = true := by decide +kernel

theorem witness_OnlyRndReadsTheRandomByte :
    (∀ x kk, Instr.ld6xkk 1 2 ≠ .rndCxkk x kk) ∧ ∃ t, exec (.ld6xkk 1 2) State.reset = .next t := ⟨nofun, _, rfl⟩

theorem witness_UnmatchedWordRunsAsNoOp : unmatchedWord 0xFFFF = true ∧ (State.reset.withWord 0xFFFF).fetches 0xFFFF :=
  ⟨by decide, withWord_fetches _ _⟩

theorem witness_SysRunsAsNoOp : opField 0x00E1 = 0 ∧ (0x00E1 : Word) ≠ 0x00E0 ∧ (0x00E1 : Word) ≠ 0x00EE ∧
    (State.reset.withWord 0x00E1).fetches 0x00E1 := ⟨by decide, by decide, by decide, withWord_fetches _ _⟩

/-- The flag clause of the statements about `ADD`, `SUB`, `SHR`, `SUBN` and `SHL`: the least and the greatest
destination that is not `VF`. -/
theorem witness_flag_clause_of_add_sub_shift : (0 : Reg) ≠ regF ∧ (14 : Reg) ≠ regF := by decide

theorem witness_CallPushesReturnAddressOrFaults :
    (nested State.reset 0 0).sp.val = (0 : Fin 16).val ∧ (nested State.reset 15 0).sp.val = (15 : Fin 16).val ∧
    ((nested State.reset 16 0).withWord (wordNNN 0x2 0xABC)).sp.val = 16 ∧
    ((nested State.reset 16 0).withWord (wordNNN 0x2 0xABC)).fetches (wordNNN 0x2 0xABC) :=
  ⟨rfl, rfl, rfl, withWord_fetches _ _⟩

theorem witness_ReturnPopsOrFaults :
    (nested State.reset 1 0).sp.val = (0 : Fin 16).val + 1 ∧ (nested State.reset 16 0).sp.val = (15 : Fin 16).val + 1 ∧
    (State.reset.withWord 0x00EE).sp.val = 0 ∧ (State.reset.withWord 0x00EE).fetches 0x00EE :=
  ⟨rfl, rfl, rfl, withWord_fetches _ _⟩

/-- The last index at which three digits fit, and the first at which they do not. -/
theorem witness_DecimalDigitsStoredOrFault :
    (State.reset.setIdx 0xFFD).idx.toNat + 2 < 4096 ∧
    4096 ≤ ((State.reset.setIdx 0xFFE).withWord (wordXKK 0xF 3 0x33)).idx.toNat + 2 ∧
    ((State.reset.setIdx 0xFFE).withWord (wordXKK 0xF 3 0x33)).fetches (wordXKK 0xF 3 0x33) :=
  ⟨by decide, by decide, withWord_fetches _ _⟩

/-- Both range modes, at the last index that fits, and the first that does not; an empty range at any index. -/
theorem witness_RegisterDumpStoresTheRangeOrFaults :
    regCount (withModes State.reset .lowBit .exclusive .wrap).straps.regRange 0 = 0 ∧
    0xFF1 + regCount .exclusive 15 ≤ 4096 ∧ 0xFF0 + regCount .inclusive 15 ≤ 4096 ∧
    0 < regCount .inclusive 15 ∧ 4096 < ((State.reset.setIdx 0xFF1).withWord (wordXKK 0xF 15 0x55)).idx.toNat + regCount .inclusive 15 ∧
    ((State.reset.setIdx 0xFF1).withWord (wordXKK 0xF 15 0x55)).straps.regRange = .inclusive ∧
    ((State.reset.setIdx 0xFF1).withWord (wordXKK 0xF 15 0x55)).fetches (wordXKK 0xF 15 0x55) :=
  ⟨rfl, by decide, by decide, by decide, by decide, rfl, withWord_fetches _ _⟩

theorem witness_RegisterLoadReadsTheRangeOrFaults :
    regCount (withModes State.reset .lowBit .exclusive .wrap).straps.regRange 0 = 0 ∧
    0xFF1 + regCount .exclusive 15 ≤ 4096 ∧ 0xFF0 + regCount .inclusive 15 ≤ 4096 ∧
    0 < regCount .inclusive 15 ∧ 4096 < ((State.reset.setIdx 0xFF1).withWord (wordXKK 0xF 15 0x65)).idx.toNat + regCount .inclusive 15 ∧
    ((State.reset.setIdx 0xFF1).withWord (wordXKK 0xF 15 0x65)).straps.regRange = .inclusive ∧
    ((State.reset.setIdx 0xFF1).withWord (wordXKK 0xF 15 0x65)).fetches (wordXKK 0xF 15 0x65) :=
  ⟨rfl, by decide, by decide, by decide, by decide, rfl, withWord_fetches _ _⟩

theorem witness_DumpThenLoadRestoresTheRange :
    ∃ t, exec (.ldFx55 15) (counted.setIdx 0xFF0) = .next t ∧ t.running := ⟨_, rfl, rfl⟩

theorem witness_TimerInstructionsCopyThenTick :
    (State.reset.withWord (wordXKK 0xF 2 0x07)).fetches (wordXKK 0xF 2 0x07) ∧
    (State.reset.withWord (wordXKK 0xF 2 0x15)).fetches (wordXKK 0xF 2 0x15) ∧
    (State.reset.withWord (wordXKK 0xF 2 0x18)).fetches (wordXKK 0xF 2 0x18) :=
  ⟨withWord_fetches _ _, withWord_fetches _ _, withWord_fetches _ _⟩

/-- The least and the greatest key, and no key. -/
theorem witness_KeyWaitStoresLowestKeyOrRetries :
    ((pressed State.reset 0).key[0] = true ∧ ∀ j : Fin 16, j < 0 → (pressed State.reset 0).key[j.val] = false) ∧
    ((pressed State.reset 15).key[15] = true ∧ ∀ j : Fin 16, j < 15 → (pressed State.reset 15).key[j.val] = false) ∧
    (∀ k : Fin 16, State.reset.key[k.val] = false) := by decide

theorem witness_KeySkipsTestTheNamedKey : (15 : Fin 16).val = ((pre [(1, 0xFF)]).reg 1).toNat % 16 := by decide

/-- No row at an index outside memory, rows that end at the last byte, and in both edge modes the cells of a row
of two set bits that starts in the last column (2.6: `D011` with `V0 = 0x3F`, `V1 = 0x05`, sprite byte `C0`). -/
theorem witness_DrawTogglesCellsAndDetectsCollision :
    (0 : Nibble).toNat = 0 ∧ (State.reset.setIdx 0xFF1).idx.toNat + (0xF : Nibble).toNat ≤ 4096 ∧
    [(DrawEdgeMode.wrap, [383, 320]), (.clamp, [383, 384])].all (fun (mode, cells) =>
      let s := withModes (bytes ((pre [(0, 0x3F), (1, 0x05)]).setIdx 0x300) 0x300 [0xC0]) .lowBit .inclusive mode
      cells == (List.range (1 : Nibble).toNat).flatMap (fun r =>
        ((List.range 8).filter (fun c => (s.byteAt (s.idx.toNat + r)).getLsbD (7 - c))).map (fun c =>
          match s.straps.drawEdge with
          | .wrap => ((s.reg 1).toNat % 32 + r) % 32 * 64 + ((s.reg 0).toNat % 64 + c) % 64
          | .clamp => min (((s.reg 1).toNat % 32 + r) * 64 + ((s.reg 0).toNat % 64 + c)) 2047))) = true := by decide

theorem witness_WrappedDrawIsXorAndIntersection :
    State.reset.straps.drawEdge = .wrap ∧ (State.reset.setIdx 0xFF1).idx.toNat + (0xF : Nibble).toNat ≤ 4096 ∧
    ∃ covers : Nat → Nat → Prop, ∀ cx cy, covers cx cy ↔ ∃ r c, r < (0xF : Nibble).toNat ∧ c < 8 ∧
      ((State.reset.setIdx 0xFF1).byteAt ((State.reset.setIdx 0xFF1).idx.toNat + r)).getLsbD (7 - c) = true ∧
      ((State.reset.reg 0).toNat + c) % 64 = cx ∧ ((State.reset.reg 1).toNat + r) % 32 = cy :=
  ⟨rfl, by decide, _, fun _ _ => Iff.rfl⟩

theorem witness_DrawOutsideMemoryFaults :
    0 < (2 : Nibble).toNat ∧ 4096 < ((State.reset.setIdx 0xFFF).withWord (wordXYN 0xD 0 1 2)).idx.toNat + (2 : Nibble).toNat ∧
    ((State.reset.setIdx 0xFFF).withWord (wordXYN 0xD 0 1 2)).fetches (wordXYN 0xD 0 1 2) :=
  ⟨by decide, by decide, withWord_fetches _ _⟩

end Sys2Proof.Tests
end

/-! ### The configuration is constant (00_scope.md R5, 10_state.md R31) -/

namespace Sys2Proof.Machine

/-- The inversion of `Reset`: the image fits, and the machine's own configuration goes into the new state
(70_reset_and_hazards.md R230, R231). -/
theorem hostReset_inversion {program : List Byte} {s t : State} (h : hostReset program s = .next t) :
    program.length ≤ maxProgram ∧ t = State.resetWith s.straps program s.draws := by
  unfold hostReset at h
  split at h
  next fits => exact ⟨fits, (Host.Outcome.next.inj h).symm⟩
  next => cases h

/-- The inversion of a key move: the index names a key, and only that key is written
(44_timer_keypad_random.md R170). -/
theorem putKey_inversion {k : Nat} {b : Bool} {s t : State} (h : s.putKey k b = .next t) :
    ∃ hk : k < 16, t = { s with key := s.key.set k b hk } := by
  unfold State.putKey at h
  split at h
  next hk => exact ⟨hk, (Host.Outcome.next.inj h).symm⟩
  next => cases h

theorem putKey_keeps_straps {k : Nat} {b : Bool} {s t : State} (h : s.putKey k b = .next t) :
    t.straps = s.straps := by
  obtain ⟨_, rfl⟩ := putKey_inversion h
  rfl

theorem hostMove_keeps_straps {m : HostMove} {s t : State} (h : hostMove m s = .next t) :
    t.straps = s.straps := by
  cases m with
  | reset program =>
    obtain ⟨_, rfl⟩ := hostReset_inversion h
    rfl
  | keySet k => exact putKey_keeps_straps h
  | keyClear k => exact putKey_keeps_straps h

/-- No effect of an instruction touches the configuration: whatever it writes, it is another field. -/
theorem Effect.straps_eq {i : Instr} {s t : State} (h : Effect i s t) : t.straps = s.straps := by
  cases i with
  | ret00EE | call2nnn | drwDxyn =>
    obtain ⟨_, rfl⟩ := h
    rfl
  | ldFx33 | ldFx55 | ldFx65 =>
    obtain ⟨_, _, rfl, _⟩ := h
    rfl
  | ldFx0A =>
    obtain ⟨_, _, rfl⟩ | ⟨_, rfl⟩ := h
    · rfl
    · rfl
  | _ =>
    cases h
    rfl

theorem step_keeps_straps {s t : State} (h : step s = .next t) : t.straps = s.straps := by
  obtain ⟨_, rfl⟩ | ⟨_, _, rfl⟩ | ⟨_, _, _, _, rfl⟩ | ⟨w, u, _, effect, _, rfl⟩ := step_inversion h
  · rfl
  · exact latchFault_straps s _
  · exact latchFault_straps s _
  · calc u.tick.straps = u.straps := tick_straps u
      _ = s.advance.straps := effect.straps_eq
      _ = s.straps := advance_straps s

/-- Settles O23: by the inversion of the step and of each host move. -/
theorem configurationIsConstant : Obligations.ConfigurationIsConstant :=
  ⟨fun _ _ h => step_keeps_straps h, fun _ _ _ h => hostMove_keeps_straps h⟩

end Sys2Proof.Machine

/-! ### What `Reset` leaves (10_state.md R33, 70_reset_and_hazards.md R230) -/

namespace Sys2Proof.Machine

/-- An image that fits is loaded: `Reset` is not refused (70_reset_and_hazards.md R230). -/
theorem hostReset_of_fits {program : List Byte} (fits : program.length ≤ maxProgram) (s : State) :
    hostReset program s = .next (State.resetWith s.straps program s.draws) := if_pos fits

/-- The fixed reset state is `Reset` with the empty program in the default configuration. -/
theorem reset_eq_resetWith : State.reset = State.resetWith defaultStraps [] 0 := rfl

@[simp] theorem resetWith_reg (straps : Straps) (program : List Byte) (draws : Nat) (x : Reg) :
    (State.resetWith straps program draws).reg x = 0 := Vector.getElem_replicate x.isLt

@[simp] theorem resetWith_stack (straps : Straps) (program : List Byte) (draws : Nat) (k : Fin 16) :
    (State.resetWith straps program draws).stack[k.val] = 0 := Vector.getElem_replicate k.isLt

/-- Settles O1: both states are values of `State.resetWith`, whose registers, stack and timers depend neither
on the configuration nor on the program. -/
theorem resetClearsRegistersStackAndTimers : Obligations.ResetClearsRegistersStackAndTimers := by
  intro s program fits
  refine ⟨_, hostReset_of_fits fits s, fun u hu => ?_⟩
  obtain ⟨straps, image, draws, rfl⟩ : ∃ straps image draws, u = State.resetWith straps image draws := by
    obtain rfl | rfl := hu
    · exact ⟨_, _, _, rfl⟩
    · exact ⟨_, _, _, reset_eq_resetWith⟩
  exact ⟨resetWith_reg straps image draws, rfl, rfl, resetWith_stack straps image draws, rfl, rfl, rfl⟩

end Sys2Proof.Machine

/-! ### The timers tick last (40_engine_step.md R94) -/

namespace Sys2Proof.Machine

/-- A state fetches one word only: the two bytes at `PC`. -/
theorem fetches_unique {s : State} {w w' : Word} (h : s.fetches w) (h' : s.fetches w') : w = w' := by
  obtain ⟨_, _, hw⟩ := h
  obtain ⟨_, _, hw'⟩ := h'
  exact hw.symm.trans hw'

/-- The inversion of a step that does not fault: the fetched word has its effect on the advanced state, and then
the timers tick (40_engine_step.md R90, R94). -/
theorem step_inversion_running {s t : State} {w : Word} (fetched : s.fetches w) (stepped : step s = .next t)
    (running : t.running) : ∃ u, Effect (decodeWord w) s.advance u ∧ t = u.tick := by
  obtain ⟨halted, _⟩ | ⟨_, _, rfl⟩ | ⟨_, _, _, _, rfl⟩ | ⟨w', u, fetched', effect, _, ticked⟩ :=
    step_inversion stepped
  · exact absurd fetched.1 halted
  · cases running
  · cases running
  · rw [fetches_unique fetched fetched']
    exact ⟨u, effect, ticked⟩

/-- Before the tick each timer has one writer: `LD DT, Vx` and `LD ST, Vx` (44_timer_keypad_random.md R162, R163). -/
theorem Effect.timers_eq {i : Instr} {s t : State} (h : Effect i s t) :
    ((∀ x, i ≠ .ldFx15 x) → t.dt = s.dt) ∧ ((∀ x, i ≠ .ldFx18 x) → t.st = s.st) := by
  cases i with
  | ldFx15 x =>
    cases h
    exact ⟨fun other => absurd rfl (other x), fun _ => rfl⟩
  | ldFx18 x =>
    cases h
    exact ⟨fun _ => rfl, fun other => absurd rfl (other x)⟩
  | ret00EE | call2nnn | drwDxyn =>
    obtain ⟨_, rfl⟩ := h
    exact ⟨fun _ => rfl, fun _ => rfl⟩
  | ldFx33 | ldFx55 | ldFx65 =>
    obtain ⟨_, _, rfl, _⟩ := h
    exact ⟨fun _ => rfl, fun _ => rfl⟩
  | ldFx0A =>
    obtain ⟨_, _, rfl⟩ | ⟨_, rfl⟩ := h
    · exact ⟨fun _ => rfl, fun _ => rfl⟩
    · exact ⟨fun _ => rfl, fun _ => rfl⟩
  | _ =>
    cases h
    exact ⟨fun _ => rfl, fun _ => rfl⟩

/-- Settles O17: the state is the ticked one of the instruction's effect, which writes a timer only where the
instruction is that timer's load. -/
theorem timersTickLastInEveryStep : Obligations.TimersTickLastInEveryStep := by
  intro s t w fetched stepped running
  obtain ⟨u, effect, rfl⟩ := step_inversion_running fetched stepped running
  obtain ⟨dt_eq, st_eq⟩ := effect.timers_eq
  simp only [tick_dt, tick_st, tick_reg, tickByte_toNat]
  refine ⟨?_, ?_, fun x reads => ?_⟩
  · split
    next x loads =>
      rw [loads] at effect
      cases effect
      rfl
    next other => rw [dt_eq other, advance_dt]
  · split
    next x loads =>
      rw [loads] at effect
      cases effect
      rfl
    next other => rw [st_eq other, advance_st]
  · rw [reads] at effect
    cases effect
    rw [setReg_reg_same, advance_dt]

end Sys2Proof.Machine

/-! ### Register addition and subtraction with their flags (41_alu.md R105, R106) -/

namespace Sys2Proof.Machine

/-- With `x` other than 15 the result does not reach the flag (10_state.md R22). -/
theorem setFlagThenReg_reg_flag (s : State) (f : Byte) {x : Reg} (hx : x ≠ regF) (r : Byte) :
    (s.setFlagThenReg f x r).reg regF = f := by
  rw [State.setFlagThenReg, setReg_reg_ne _ hx.symm, setReg_reg_same]

/-- The frame of an instruction that writes a flag and then its result. -/
theorem setFlagThenReg_frame (s : State) (f : Byte) (x : Reg) (r : Byte) :
    OnlyChanges (fun p => p = .reg x ∨ p = .reg regF) s (s.setFlagThenReg f x r) :=
  onlyChanges_setFlagThenReg s f x r (.inl rfl) (.inr rfl)

/-- The flag of a condition, as a number. -/
theorem flagByte_decide_toNat (p : Prop) [Decidable p] :
    (flagByte (decide p)).toNat = if p then 1 else 0 := by
  rw [flagByte_toNat, Bool.toNat, Bool.cond_decide]

theorem carryFlag_toNat (a b : Byte) :
    (carryFlag a b).toNat = if a.toNat + b.toNat > 255 then 1 else 0 := flagByte_decide_toNat _

theorem greaterFlag_toNat (minuend subtrahend : Byte) :
    (greaterFlag minuend subtrahend).toNat = if minuend.toNat > subtrahend.toNat then 1 else 0 :=
  flagByte_decide_toNat _

/-- A difference of bytes is the integer difference modulo 256. -/
theorem byte_sub_toNat (a b : Byte) : ((a - b).toNat : Int) = (a.toNat - b.toNat : Int) % 256 := by
  have ha : a.toNat < 256 := a.isLt
  have hb : b.toNat < 256 := b.isLt
  rw [BitVec.toNat_sub]
  omega

/-- Words of class 8 are decoded by their low nibble (30_encoding.md R75). -/
theorem decodeWord_class8 (x y : Reg) (n : Nibble) :
    decodeWord (wordXYN 0x8 x y n) = decodeClass8 (wordXYN 0x8 x y n) := by
  simp [decodeWord]

theorem decodeWord_add8xy4 (x y : Reg) : decodeWord (wordXYN 0x8 x y 0x4) = .add8xy4 x y := by
  rw [decodeWord_class8]
  simp [decodeClass8]

theorem decodeWord_sub8xy5 (x y : Reg) : decodeWord (wordXYN 0x8 x y 0x5) = .sub8xy5 x y := by
  rw [decodeWord_class8]
  simp [decodeClass8]

theorem exec_add8xy4 (x y : Reg) (s : State) : exec (.add8xy4 x y) s =
    .next (s.setFlagThenReg (carryFlag (s.reg x) (s.reg y)) x (s.reg x + s.reg y)) := rfl

theorem exec_sub8xy5 (x y : Reg) (s : State) : exec (.sub8xy5 x y) s =
    .next (s.setFlagThenReg (greaterFlag (s.reg x) (s.reg y)) x (s.reg x - s.reg y)) := rfl

/-- Settles O34: the result is written last, and the flag is the carry where the result leaves it. -/
theorem addSetsCarryThenResult : Obligations.AddSetsCarryThenResult := by
  intro x y
  refine ⟨decodeWord_add8xy4 x y, fun s => ⟨_, exec_add8xy4 x y s, ?_, fun hx => ?_, setFlagThenReg_frame ..⟩⟩
  · calc _ = (s.reg x + s.reg y).toNat := congrArg _ (setFlagThenReg_reg_result ..)
      _ = ((s.reg x).toNat + (s.reg y).toNat) % 256 := BitVec.toNat_add ..
  · rw [setFlagThenReg_reg_flag s _ hx, carryFlag_toNat]

/-- Settles O35: the result is written last, and the flag is the strict comparison where the result leaves it. -/
theorem subSetsGreaterThenResult : Obligations.SubSetsGreaterThenResult := by
  intro x y
  refine ⟨decodeWord_sub8xy5 x y, fun s => ⟨_, exec_sub8xy5 x y s, ?_, fun hx => ?_, setFlagThenReg_frame ..⟩⟩
  · calc _ = ((s.reg x - s.reg y).toNat : Int) := congrArg (fun b => (b.toNat : Int)) (setFlagThenReg_reg_result ..)
      _ = ((s.reg x).toNat - (s.reg y).toNat : Int) % 256 := byte_sub_toNat ..
  · rw [setFlagThenReg_reg_flag s _ hx, greaterFlag_toNat]

end Sys2Proof.Machine

/-! ### Register loads (43_load_index_memory.md R140, R141) -/

namespace Sys2Proof.Machine

theorem decodeWord_ld6xkk (x : Reg) (kk : Byte) : decodeWord (wordXKK 0x6 x kk) = .ld6xkk x kk := by
  simp [decodeWord]

theorem decodeWord_ld8xy0 (x y : Reg) : decodeWord (wordXYN 0x8 x y 0x0) = .ld8xy0 x y := by
  rw [decodeWord_class8]
  simp [decodeClass8]

theorem exec_ld6xkk (x : Reg) (kk : Byte) (s : State) : exec (.ld6xkk x kk) s = .next (s.setReg x kk) := rfl

theorem exec_ld8xy0 (x y : Reg) (s : State) : exec (.ld8xy0 x y) s = .next (s.setReg x (s.reg y)) := rfl

/-- The frame of an instruction that writes one register. -/
theorem setReg_frame (s : State) (x : Reg) (b : Byte) : OnlyChanges (· = .reg x) s (s.setReg x b) :=
  onlyChanges_setReg s x b rfl

/-- A byte loaded into `V[x]` and copied from there to `V[y]` is read back from `V[y]`, also where `y` is `x`. -/
theorem setReg_copy_reg (s : State) (x y : Reg) (b : Byte) :
    ((s.setReg x b).setReg y ((s.setReg x b).reg x)).reg y = b := by
  rw [setReg_reg_same, setReg_reg_same]

/-- Settles O44: each load writes one register, and the copy reads the register that the load wrote. -/
theorem registerLoadsCopyTheByte : Obligations.RegisterLoadsCopyTheByte := by
  intro x y kk
  refine ⟨decodeWord_ld6xkk x kk, decodeWord_ld8xy0 x y, fun s => ⟨⟨_, exec_ld6xkk x kk s, ?_, ?_, ?_⟩, ?_⟩⟩
  · exact setReg_reg_same s x kk
  · exact setReg_frame s x kk
  · exact ⟨_, exec_ld8xy0 y x _, setReg_copy_reg s x y kk⟩
  · exact ⟨_, exec_ld8xy0 x y s, setReg_reg_same s x _, setReg_frame s x _⟩

end Sys2Proof.Machine

/-! ### Encoding and decoding (30_encoding.md R74 to R77) -/

namespace Sys2Proof

section
variable {w : Word} {op : Nibble}

theorem opField_eq_of_toNat (h : (opField w).toNat = op.toNat) : opField w = op := BitVec.eq_of_toNat_eq h

theorem wordNNN_of_opField (h : (opField w).toNat = op.toNat) : wordNNN op (nnnField w) = w := by
  rw [← opField_eq_of_toNat h, wordNNN_fields]

theorem wordXKK_of_opField (h : (opField w).toNat = op.toNat) : wordXKK op (xField w) (kkField w) = w := by
  rw [← opField_eq_of_toNat h, wordXKK_fields]

theorem wordXKK_of_fields {kk : Byte} (h : (opField w).toNat = op.toNat) (hkk : (kkField w).toNat = kk.toNat) :
    wordXKK op (xField w) kk = w := by
  rw [← BitVec.eq_of_toNat_eq hkk, wordXKK_of_opField h]

theorem wordXYN_of_opField (h : (opField w).toNat = op.toNat) :
    wordXYN op (xField w) (yField w) (nField w) = w := by
  rw [← opField_eq_of_toNat h, wordXYN_fields]

theorem wordXYN_of_fields {n : Nibble} (h : (opField w).toNat = op.toNat) (hn : (nField w).toNat = n.toNat) :
    wordXYN op (xField w) (yField w) n = w := by
  rw [← BitVec.eq_of_toNat_eq hn, wordXYN_of_opField h]

end

/-- An instruction that stands for the word: well-formed, and encoded as it. -/
def StandsFor (i : Instr) (w : Word) : Prop := i.wellFormed = true ∧ encode i = w

theorem decodeClass0_standsFor {w : Word} (h : (opField w).toNat = 0x0) : StandsFor (decodeClass0 w) w := by
  unfold decodeClass0
  split
  next cls => exact ⟨rfl, cls.symm⟩
  split
  next ret => exact ⟨rfl, ret.symm⟩
  next notCls notRet =>
    have back : wordNNN 0x0 (nnnField w) = w := wordNNN_of_opField h
    refine ⟨?_, back⟩
    simp only [Instr.wellFormed, sysWellFormed, Bool.and_eq_true, bne_iff_ne]
    constructor
    · intro e; rw [e] at back; exact notCls back.symm
    · intro e; rw [e] at back; exact notRet back.symm

/-- A nibble that is no sub-opcode of class 8 is one of those that R76 lists. -/
theorem class8_unmatched : ∀ n : Nibble, n.toNat ∉ [0x0, 0x1, 0x2, 0x3, 0x4, 0x5, 0x6, 0x7, 0xE] →
    [0x8, 0x9, 0xA, 0xB, 0xC, 0xD, 0xF].contains n = true := by decide

theorem decodeClass8_standsFor {w : Word} (h : (opField w).toNat = 0x8) : StandsFor (decodeClass8 w) w := by
  unfold decodeClass8
  split
  iterate 9 next n => exact ⟨rfl, wordXYN_of_fields h n⟩
  next not0 not1 not2 not3 not4 not5 not6 not7 notE =>
    refine ⟨?_, rfl⟩
    simp only [Instr.wellFormed, unmatchedWord, h]
    exact class8_unmatched _ (by simpa using ⟨not0, not1, not2, not3, not4, not5, not6, not7, notE⟩)

theorem decodeClassE_standsFor {w : Word} (h : (opField w).toNat = 0xE) : StandsFor (decodeClassE w) w := by
  unfold decodeClassE
  split
  next kk => exact ⟨rfl, wordXKK_of_fields h kk⟩
  next kk => exact ⟨rfl, wordXKK_of_fields h kk⟩
  next not9E notA1 =>
    exact ⟨by simpa [Instr.wellFormed, unmatchedWord, h, BitVec.toNat_eq] using ⟨not9E, notA1⟩, rfl⟩

theorem decodeClassF_standsFor {w : Word} (h : (opField w).toNat = 0xF) : StandsFor (decodeClassF w) w := by
  unfold decodeClassF
  split
  iterate 9 next kk => exact ⟨rfl, wordXKK_of_fields h kk⟩
  next not07 not0A not15 not18 not1E not29 not33 not55 not65 =>
    exact ⟨by simpa [Instr.wellFormed, unmatchedWord, h, BitVec.toNat_eq] using
      ⟨not07, not0A, not15, not18, not1E, not29, not33, not55, not65⟩, rfl⟩

/-- A word of class 5 or 9 with a non-zero low nibble matches no row (R76). -/
theorem unmatchedWord_of_xy0 {w : Word} (op : (opField w).toNat = 0x5 ∨ (opField w).toNat = 0x9)
    (notZero : nField w ≠ 0x0) : unmatchedWord w = true := by
  obtain op | op := op <;> simpa only [unmatchedWord, op, bne_iff_ne] using notZero

theorem decodeWord_standsFor (w : Word) : StandsFor (decodeWord w) w := by
  unfold decodeWord
  split
  next h => exact decodeClass0_standsFor h
  next h => exact ⟨rfl, wordNNN_of_opField h⟩
  next h => exact ⟨rfl, wordNNN_of_opField h⟩
  next h => exact ⟨rfl, wordXKK_of_opField h⟩
  next h => exact ⟨rfl, wordXKK_of_opField h⟩
  next h =>
    split
    next hn => exact ⟨rfl, wordXYN_of_fields h (congrArg _ hn)⟩
    next hn => exact ⟨unmatchedWord_of_xy0 (.inl h) hn, rfl⟩
  next h => exact ⟨rfl, wordXKK_of_opField h⟩
  next h => exact ⟨rfl, wordXKK_of_opField h⟩
  next h => exact decodeClass8_standsFor h
  next h =>
    split
    next hn => exact ⟨rfl, wordXYN_of_fields h (congrArg _ hn)⟩
    next hn => exact ⟨unmatchedWord_of_xy0 (.inr h) hn, rfl⟩
  next h => exact ⟨rfl, wordNNN_of_opField h⟩
  next h => exact ⟨rfl, wordNNN_of_opField h⟩
  next h => exact ⟨rfl, wordXKK_of_opField h⟩
  next h => exact ⟨rfl, wordXYN_of_opField h⟩
  next h => exact decodeClassE_standsFor h
  next h => exact decodeClassF_standsFor h
  next =>
    have : (opField w).toNat < 16 := (opField w).isLt
    simp only [imp_false] at *
    omega

/-- Settles O6: class by class, the decoded fields put the word together again. -/
theorem encodeOfDecodeIsTheWord : Obligations.EncodeOfDecodeIsTheWord := decodeWord_standsFor

/-- No word selects both rows, or the earlier row is exact and the later one builds an ill-formed instruction
of its word: either way the order of the two decides nothing for a well-formed instruction (R74). -/
def OpcodeRow.Yields (r later : OpcodeRow) : Prop :=
  r.bits &&& later.mask ≠ later.bits &&& r.mask ∨ (r.mask = 0xFFFF ∧ (later.build r.bits).wellFormed = false)

theorem opcodeMap_yields : opcodeMap.Pairwise OpcodeRow.Yields := by
  unfold OpcodeRow.Yields
  decide

theorem OpcodeRow.selectedBy_iff (r : OpcodeRow) (w : Word) : r.selectedBy w = true ↔ w &&& r.mask = r.bits := by
  simp [OpcodeRow.selectedBy]

/-- Of two rows that a word selects, the later one builds no well-formed instruction. -/
theorem OpcodeRow.Yields.not_wellFormed {r later : OpcodeRow} {w : Word} (h : r.Yields later)
    (sel : r.selectedBy w = true) (selLater : later.selectedBy w = true) : (later.build w).wellFormed = false := by
  rw [OpcodeRow.selectedBy_iff] at sel selLater
  obtain disjoint | ⟨isExact, ill⟩ := h
  · refine absurd ?_ disjoint
    rw [← sel, ← selLater, BitVec.and_assoc, BitVec.and_assoc, BitVec.and_comm r.mask]
  · rw [isExact, show w &&& (0xFFFF : Word) = w from ones16 w] at sel
    rw [sel]
    exact ill

/-- In rows that yield in order, a selected row that builds a well-formed instruction is the first selected one. -/
theorem find?_selected {rows : List OpcodeRow} {w : Word} {r : OpcodeRow} (yields : rows.Pairwise OpcodeRow.Yields)
    (mem : r ∈ rows) (sel : r.selectedBy w = true) (wf : (r.build w).wellFormed = true) :
    rows.find? (OpcodeRow.selectedBy · w) = some r := by
  induction rows with
  | nil => cases mem
  | cons first rows ih =>
    obtain ⟨yieldsFirst, yields⟩ := List.pairwise_cons.1 yields
    obtain rfl | mem := List.mem_cons.1 mem
    · exact List.find?_cons_of_pos sel
    · have notFirst : ¬ first.selectedBy w = true := fun selFirst => by
        rw [(yieldsFirst r mem).not_wellFormed selFirst sel] at wf
        cases wf
      rw [List.find?_cons_of_neg (p := (OpcodeRow.selectedBy · w)) notFirst]
      exact ih yields mem

theorem decodeByMap_of_row {i : Instr} (wf : i.wellFormed = true)
    (row : ∃ r ∈ opcodeMap, r.selectedBy (encode i) = true ∧ r.build (encode i) = i) : decodeByMap (encode i) = i := by
  obtain ⟨r, mem, sel, back⟩ := row
  rw [decodeByMap, find?_selected opcodeMap_yields mem sel (by rw [back]; exact wf)]
  exact back

/-- A well-formed instruction's word selects its own row first (R74, R75). -/
theorem decodeByMap_encode (i : Instr) (wf : i.wellFormed = true) : decodeByMap (encode i) = i := by
  cases i with
  | nop w =>
    have noRow : opcodeMap.find? (fun r => r.selectedBy w) = none :=
      List.find?_eq_none.2 fun r mem => Bool.eq_false_iff.1 (Laws.SelectsItsRow.nop w wf r mem)
    rw [encode, decodeByMap, noRow]
  | cls00E0 => exact decodeByMap_of_row wf (Laws.SelectsItsRow.cls00E0 wf)
  | ret00EE => exact decodeByMap_of_row wf (Laws.SelectsItsRow.ret00EE wf)
  | sys0nnn nnn => exact decodeByMap_of_row wf (Laws.SelectsItsRow.sys0nnn nnn wf)
  | jp1nnn nnn => exact decodeByMap_of_row wf (Laws.SelectsItsRow.jp1nnn nnn wf)
  | call2nnn nnn => exact decodeByMap_of_row wf (Laws.SelectsItsRow.call2nnn nnn wf)
  | se3xkk x kk => exact decodeByMap_of_row wf (Laws.SelectsItsRow.se3xkk x kk wf)
  | sne4xkk x kk => exact decodeByMap_of_row wf (Laws.SelectsItsRow.sne4xkk x kk wf)
  | se5xy0 x y => exact decodeByMap_of_row wf (Laws.SelectsItsRow.se5xy0 x y wf)
  | ld6xkk x kk => exact decodeByMap_of_row wf (Laws.SelectsItsRow.ld6xkk x kk wf)
  | add7xkk x kk => exact decodeByMap_of_row wf (Laws.SelectsItsRow.add7xkk x kk wf)
  | ld8xy0 x y => exact decodeByMap_of_row wf (Laws.SelectsItsRow.ld8xy0 x y wf)
  | or8xy1 x y => exact decodeByMap_of_row wf (Laws.SelectsItsRow.or8xy1 x y wf)
  | and8xy2 x y => exact decodeByMap_of_row wf (Laws.SelectsItsRow.and8xy2 x y wf)
  | xor8xy3 x y => exact decodeByMap_of_row wf (Laws.SelectsItsRow.xor8xy3 x y wf)
  | add8xy4 x y => exact decodeByMap_of_row wf (Laws.SelectsItsRow.add8xy4 x y wf)
  | sub8xy5 x y => exact decodeByMap_of_row wf (Laws.SelectsItsRow.sub8xy5 x y wf)
  | shr8xy6 x y => exact decodeByMap_of_row wf (Laws.SelectsItsRow.shr8xy6 x y wf)
  | subn8xy7 x y => exact decodeByMap_of_row wf (Laws.SelectsItsRow.subn8xy7 x y wf)
  | shl8xyE x y => exact decodeByMap_of_row wf (Laws.SelectsItsRow.shl8xyE x y wf)
  | sne9xy0 x y => exact decodeByMap_of_row wf (Laws.SelectsItsRow.sne9xy0 x y wf)
  | ldAnnn nnn => exact decodeByMap_of_row wf (Laws.SelectsItsRow.ldAnnn nnn wf)
  | jpBnnn nnn => exact decodeByMap_of_row wf (Laws.SelectsItsRow.jpBnnn nnn wf)
  | rndCxkk x kk => exact decodeByMap_of_row wf (Laws.SelectsItsRow.rndCxkk x kk wf)
  | drwDxyn x y n => exact decodeByMap_of_row wf (Laws.SelectsItsRow.drwDxyn x y n wf)
  | skpEx9E x => exact decodeByMap_of_row wf (Laws.SelectsItsRow.skpEx9E x wf)
  | sknpExA1 x => exact decodeByMap_of_row wf (Laws.SelectsItsRow.sknpExA1 x wf)
  | ldFx07 x => exact decodeByMap_of_row wf (Laws.SelectsItsRow.ldFx07 x wf)
  | ldFx0A x => exact decodeByMap_of_row wf (Laws.SelectsItsRow.ldFx0A x wf)
  | ldFx15 x => exact decodeByMap_of_row wf (Laws.SelectsItsRow.ldFx15 x wf)
  | ldFx18 x => exact decodeByMap_of_row wf (Laws.SelectsItsRow.ldFx18 x wf)
  | addFx1E x => exact decodeByMap_of_row wf (Laws.SelectsItsRow.addFx1E x wf)
  | ldFx29 x => exact decodeByMap_of_row wf (Laws.SelectsItsRow.ldFx29 x wf)
  | ldFx33 x => exact decodeByMap_of_row wf (Laws.SelectsItsRow.ldFx33 x wf)
  | ldFx55 x => exact decodeByMap_of_row wf (Laws.SelectsItsRow.ldFx55 x wf)
  | ldFx65 x => exact decodeByMap_of_row wf (Laws.SelectsItsRow.ldFx65 x wf)

theorem decodeWord_eq_decodeByMap (w : Word) : decodeWord w = decodeByMap w := by
  obtain ⟨wf, back⟩ := decodeWord_standsFor w
  calc decodeWord w = decodeByMap (encode (decodeWord w)) := (decodeByMap_encode _ wf).symm
    _ = decodeByMap w := by rw [back]

/-- Settles O7: the decoded instruction is well-formed, so its word selects its row first. -/
theorem decoderSelectsByMaskAndMatch : Obligations.DecoderSelectsByMaskAndMatch := decodeWord_eq_decodeByMap

theorem decodeWord_encode (i : Instr) (wf : i.wellFormed = true) : decodeWord (encode i) = i := by
  rw [decodeWord_eq_decodeByMap, decodeByMap_encode i wf]

theorem decodeBytes_encodeBytes (i : Instr) (rest : List Byte) :
    decodeBytes (encodeBytes i ++ rest) = .ok (decodeWord (encode i), rest) := by
  show Except.ok (decodeWord (wordOfBytes (highByte (encode i)) (lowByte (encode i))), rest) = _
  rw [wordOfBytes_bytes]

/-- Settles O5: decoding is selection by the opcode map, and there a well-formed instruction's word selects its own
row. -/
theorem decodeOfEncodeIsTheInstruction : Obligations.DecodeOfEncodeIsTheInstruction := fun i wf =>
  ⟨decodeWord_encode i wf, fun rest => by rw [decodeBytes_encodeBytes, decodeWord_encode i wf]⟩

theorem decodeWord_eq_nop_iff (w : Word) : decodeWord w = .nop w ↔ unmatchedWord w = true := by
  constructor
  · intro h
    have wf := (decodeWord_standsFor w).1
    rw [h] at wf
    exact wf
  · exact fun unmatched => decodeWord_encode (.nop w) unmatched

theorem decodeWord_eq_sys_iff (w : Word) :
    (∃ nnn, decodeWord w = .sys0nnn nnn) ↔ opField w = 0 ∧ w ≠ 0x00E0 ∧ w ≠ 0x00EE := by
  constructor
  · rintro ⟨nnn, h⟩
    refine ⟨?_, ?_, ?_⟩
    · have back := (decodeWord_standsFor w).2
      rw [h] at back
      rw [← back, encode, opField_wordNNN]
    · rintro rfl
      cases h
    · rintro rfl
      cases h
  · rintro ⟨op, notCls, notRet⟩
    exact ⟨nnnField w, by rw [decodeWord, op]; exact (if_neg notCls).trans (if_neg notRet)⟩

/-- Settles O8: the fallback's words by well-formedness, the words of `SYS` by the class and the two exact rows. -/
theorem fallbackAndSysWordsAreTheListedOnes : Obligations.FallbackAndSysWordsAreTheListedOnes := fun w =>
  ⟨decodeWord_eq_nop_iff w, decodeWord_eq_sys_iff w⟩

/-- Settles O9: each word is a closed one, and the decoder computes it. -/
theorem decoderCheckValues : Obligations.DecoderCheckValues := by
  unfold Obligations.DecoderCheckValues
  decide

end Sys2Proof

/-! ### Faults: their causes, and that they are precise (60_exceptions.md R200 to R204) -/

namespace Sys2Proof.Machine

theorem exec_next (i : Instr) (s : State) : ∃ t, exec i s = .next t := by
  obtain ⟨t, executed, _⟩ := exec_total i s
  exact ⟨t, executed⟩

theorem step_total (s : State) : ∃ t, step s = .next t := by
  by_cases running : s.running
  · obtain ⟨w, fetched⟩ | out := running_cases running
    · obtain ⟨t, executed⟩ := exec_next (decodeWord w) s.advance
      exact ⟨_, step_next_of_exec fetched executed⟩
    · exact ⟨_, step_fetch_faults running out⟩
  · exact ⟨_, step_halted running⟩

/-- Settles O13: a halted machine stays, a fetch outside memory latches, and every instruction answers a state. -/
theorem everyStepAnswersNextState : Obligations.EveryStepAnswersNextState := step_total

/-- Settles O14: of the cases of a step, the two that latch a fault latch it in the state before the step. -/
theorem faultingStepChangesOnlyTheLatch : Obligations.FaultingStepChangesOnlyTheLatch := by
  intro s t running stepped halted
  obtain ⟨notRunning, _⟩ | ⟨_, _, rfl⟩ | ⟨_, _, _, _, rfl⟩ | ⟨_, u, _, _, running, rfl⟩ := step_inversion stepped
  · exact absurd running notRunning
  · rfl
  · rfl
  · exact absurd running halted

section
variable {i : Instr} {s t : State} {w : Word} {f f' : Fault}

/-- The causes of a fault exclude the effect of the instruction. -/
theorem Effect.not_faults (h : Effect i s t) : ¬ Faults i s f := by
  cases i with
  | call2nnn | ret00EE =>
    obtain ⟨free, _⟩ := h
    rintro ⟨_, out⟩
    omega
  | ldFx33 =>
    obtain ⟨_, fits, _⟩ := h
    rintro ⟨_, out⟩
    omega
  | ldFx55 | ldFx65 =>
    obtain ⟨_, fits, _⟩ := h
    rintro ⟨_, _, out⟩
    omega
  | drwDxyn =>
    obtain ⟨fits, _⟩ := h
    rintro ⟨_, _, out⟩
    omega
  | _ => exact id

/-- An instruction has one fault to take. -/
theorem Faults.unique (h : Faults i s f) (h' : Faults i s f') : f = f' := by
  cases i with
  | call2nnn | ret00EE | ldFx33 | ldFx55 | ldFx65 | drwDxyn => exact h.1.trans h'.1.symm
  | _ => cases h

/-- A step whose instruction has cause to fault latches the fault and does nothing else (R204). -/
theorem step_of_faults (fetched : s.fetches w) (faults : Faults (decodeWord w) s f) :
    step s = .next (s.latchFault f) := by
  obtain ⟨t, executed, ⟨f', faults', rfl⟩ | effect⟩ := exec_total (decodeWord w) s.advance
  · rw [step_next_of_exec fetched executed, advance_takeFault, faults.unique faults']
    rfl
  · exact absurd faults effect.not_faults

theorem step_of_faults_frame (fetched : s.fetches w) (faults : Faults (decodeWord w) s f) :
    ∃ t, step s = .next t ∧ t.fault = some f ∧ OnlyChanges (· = .fault) s t :=
  ⟨_, step_of_faults fetched faults, rfl, onlyChanges_latchFault s f rfl⟩

/-- A step of a running machine ends with a fault latched exactly where the fetch or the instruction has cause. -/
theorem step_fault_iff (running : s.running) (stepped : step s = .next t) : t.fault = some f ↔
    (f = .addressOutOfRange ∧ 0xFFE < s.pc.toNat) ∨ ∃ w, s.fetches w ∧ Faults (decodeWord w) s f := by
  constructor
  · intro latched
    obtain ⟨notRunning, _⟩ | ⟨_, out, rfl⟩ | ⟨w, _, fetched, faults, rfl⟩ | ⟨_, u, _, _, running', rfl⟩ :=
      step_inversion stepped
    · exact absurd running notRunning
    · cases latched
      exact .inl ⟨rfl, out⟩
    · cases latched
      exact .inr ⟨w, fetched, faults⟩
    · cases running'.symm.trans latched
  · rintro (⟨rfl, out⟩ | ⟨w, fetched, faults⟩)
    · rw [step_fetch_faults running out] at stepped
      cases stepped
      rfl
    · rw [step_of_faults fetched faults] at stepped
      cases stepped
      rfl

theorem faults_stackFault_iff : Faults i s .stackFault ↔
    (∃ nnn, i = .call2nnn nnn ∧ s.sp.val = 16) ∨ (i = .ret00EE ∧ s.sp.val = 0) := by
  cases i <;> simp [Faults]

/-- The instructions that raise `AddressOutOfRange`, by the greatest address of their access (R202). -/
theorem faults_addressOutOfRange_iff : Faults i s .addressOutOfRange ↔
    (∃ x, i = .ldFx33 x ∧ 0xFFE ≤ s.idx.toNat) ∨
    (∃ x, (i = .ldFx55 x ∨ i = .ldFx65 x) ∧ 0 < regCount s.straps.regRange x ∧
      4096 ≤ s.idx.toNat + regCount s.straps.regRange x - 1) ∨
    (∃ x y n, i = .drwDxyn x y n ∧ 0 < n.toNat ∧ 4096 ≤ s.idx.toNat + n.toNat - 1) := by
  cases i with
  | ldFx55 | ldFx65 | drwDxyn => grind [Faults, memSize]
  | _ => simp [Faults, memSize]

end

/-- Settles O15: the fetch raises no `StackFault`, and of the instructions `CALL` and `RET` do. -/
theorem stackFaultOnFullCallOrEmptyReturnOnly : Obligations.StackFaultOnFullCallOrEmptyReturnOnly := by
  refine ⟨rfl, fun s t running stepped => ?_⟩
  simp [step_fault_iff running stepped, faults_stackFault_iff]

/-- Settles O16: the fetch at the last byte or after it, and the instructions that raise `AddressOutOfRange`. -/
theorem addressFaultOnAccessOutsideMemoryOnly : Obligations.AddressFaultOnAccessOutsideMemoryOnly := by
  refine ⟨rfl, fun s t running stepped => ?_⟩
  simp only [step_fault_iff running stepped, faults_addressOutOfRange_iff, true_and, Nat.lt_iff_add_one_le]

end Sys2Proof.Machine

/-! ### The invariant (10_state.md R38) -/

namespace Sys2Proof.Machine

theorem addrWord_toNat (nnn : Addr12) : (addrWord nnn).toNat = nnn.toNat := by
  unfold addrWord
  bv_omega

theorem addrWord_add_byteWord_toNat (nnn : Addr12) (b : Byte) :
    (addrWord nnn + byteWord b).toNat = nnn.toNat + b.toNat := by
  unfold addrWord byteWord
  bv_omega

theorem word_add_two_toNat {pc : Word} (h : pc.toNat < 0xFFFE) : (pc + 2).toNat = pc.toNat + 2 := by
  bv_omega

theorem word_sub_two_toNat_le {pc : Word} (h : 2 ≤ pc.toNat) : (pc - 2).toNat ≤ pc.toNat := by
  bv_omega

section
variable {i : Instr} {s t : State}

/-- Every effect leaves memory in its canonical form: two store bytes, and the others leave it alone. -/
theorem Effect.memWf (h : Effect i s t) (wf : s.memWf = true) : t.memWf = true := by
  cases i with
  | ldFx33 | ldFx55 =>
    obtain ⟨_, _, rfl, _, keeps⟩ := h
    exact keeps wf
  | ldFx65 =>
    obtain ⟨_, _, rfl, _⟩ := h
    exact wf
  | ret00EE | call2nnn | drwDxyn =>
    obtain ⟨_, rfl⟩ := h
    exact wf
  | ldFx0A =>
    obtain ⟨_, _, rfl⟩ | ⟨_, rfl⟩ := h
    · exact wf
    · exact wf
  | _ =>
    cases h
    exact wf

/-- Where an effect takes `PC`: from the advanced one at most one skip further, to an occupied slot's value, or to
an address that is at most `0xFFF + 0xFF`. -/
theorem Effect.counter_le (h : Effect i s t) (pc : 2 ≤ s.pc.toNat ∧ s.pc.toNat ≤ 0x1000)
    (slots : ∀ k : Fin 16, k.val < s.sp.val → s.stack[k.val].toNat ≤ 0x1000) : t.pc.toNat ≤ 0x10FE := by
  obtain ⟨low, high⟩ := pc
  have skip := word_add_two_toNat (pc := s.pc) (by omega)
  cases i with
  | jp1nnn nnn =>
    cases h
    have : nnn.toNat < 4096 := nnn.isLt
    rw [setPc_pc, addrWord_toNat]
    omega
  | call2nnn nnn =>
    obtain ⟨_, rfl⟩ := h
    have : nnn.toNat < 4096 := nnn.isLt
    show (addrWord nnn).toNat ≤ _
    rw [addrWord_toNat]
    omega
  | jpBnnn nnn =>
    cases h
    have : nnn.toNat < 4096 := nnn.isLt
    have : (s.reg 0).toNat < 256 := (s.reg 0).isLt
    rw [setPc_pc, addrWord_add_byteWord_toNat]
    omega
  | ret00EE =>
    obtain ⟨occupied, rfl⟩ := h
    have top := slots ⟨s.sp.val - 1, by omega⟩ (Nat.sub_lt occupied Nat.one_pos)
    exact top.trans (by decide)
  | se3xkk | sne4xkk | se5xy0 | sne9xy0 | skpEx9E | sknpExA1 =>
    cases h
    rw [setPc_pc]
    split <;> omega
  | ldFx0A =>
    obtain ⟨_, _, rfl⟩ | ⟨_, rfl⟩ := h
    · exact high.trans (by decide)
    · exact ((word_sub_two_toNat_le low).trans high).trans (by decide)
  | ldFx33 | ldFx55 | ldFx65 =>
    obtain ⟨_, _, rfl, _⟩ := h
    exact high.trans (by decide)
  | drwDxyn =>
    obtain ⟨_, rfl⟩ := h
    exact high.trans (by decide)
  | _ =>
    cases h
    exact high.trans (by decide)

/-- A slot that is occupied after an effect was occupied before, or was pushed and holds the advanced `PC`. -/
theorem Effect.slot_cases (h : Effect i s t) {k : Fin 16} (occupied : k.val < t.sp.val) :
    (k.val < s.sp.val ∧ t.stack[k.val] = s.stack[k.val]) ∨ t.stack[k.val] = s.pc := by
  cases i with
  | call2nnn nnn =>
    obtain ⟨_, rfl⟩ := h
    obtain below | top := Nat.lt_succ_iff_lt_or_eq.1 occupied
    · exact .inl ⟨below, Vector.getElem_set_ne (hi := by omega) (hj := by omega) (by omega)⟩
    · refine .inr ?_
      simp [top]
  | ret00EE =>
    obtain ⟨_, rfl⟩ := h
    exact .inl ⟨Nat.lt_of_lt_of_le occupied (Nat.sub_le _ 1), rfl⟩
  | ldFx33 | ldFx55 | ldFx65 =>
    obtain ⟨_, _, rfl, _⟩ := h
    exact .inl ⟨occupied, rfl⟩
  | drwDxyn =>
    obtain ⟨_, rfl⟩ := h
    exact .inl ⟨occupied, rfl⟩
  | ldFx0A =>
    obtain ⟨_, _, rfl⟩ | ⟨_, rfl⟩ := h
    · exact .inl ⟨occupied, rfl⟩
    · exact .inl ⟨occupied, rfl⟩
  | _ =>
    cases h
    exact .inl ⟨occupied, rfl⟩

/-- An effect keeps the invariant when `PC` is the advance of an address that a fetch can start at. -/
theorem Effect.inv (h : Effect i s t) (inv : s.Inv) (pc : 2 ≤ s.pc.toNat ∧ s.pc.toNat ≤ 0x1000) : t.Inv := by
  refine ⟨h.memWf inv.memory, h.counter_le pc fun k occupied => (inv.slots k occupied).2, fun k occupied => ?_⟩
  obtain ⟨before, kept⟩ | pushed := h.slot_cases occupied
  · rw [kept]
    exact inv.slots k before
  · rw [pushed]
    exact pc

/-- The advance from where a fetch can start (40_engine_step.md R91, R93). -/
theorem advance_pc_toNat {w : Word} (fetched : s.fetches w) : s.advance.pc.toNat = s.pc.toNat + 2 := by
  obtain ⟨_, inRange, _⟩ := fetched
  exact word_add_two_toNat (by omega)

theorem step_keeps_inv (inv : s.Inv) (stepped : step s = .next t) : t.Inv := by
  obtain ⟨_, rfl⟩ | ⟨_, _, rfl⟩ | ⟨_, _, _, _, rfl⟩ | ⟨w, u, fetched, effect, _, rfl⟩ := step_inversion stepped
  · exact inv
  · exact ⟨inv.memory, inv.counter, inv.slots⟩
  · exact ⟨inv.memory, inv.counter, inv.slots⟩
  · have pc := advance_pc_toNat fetched
    obtain ⟨_, inRange, _⟩ := fetched
    have advanced : s.advance.Inv := ⟨inv.memory, by omega, inv.slots⟩
    have after := effect.inv advanced (by omega)
    exact ⟨after.memory, after.counter, after.slots⟩

theorem resetWith_inv (straps : Straps) {program : List Byte} (draws : Nat) (fits : program.length ≤ maxProgram) :
    (State.resetWith straps program draws).Inv := by
  have inMemory : programBase + program.length ≤ memSize := Nat.add_le_add_left fits programBase
  have laidOut := Memory.wfFrom_ofBytes (base := resetByte straps.glyph) programBase program inMemory
  exact ⟨Memory.wfFrom_mono (Nat.zero_le _) laidOut, by show 0x200 ≤ _; decide, nofun⟩

theorem hostMove_keeps_inv {m : HostMove} (inv : s.Inv) (moved : hostMove m s = .next t) : t.Inv := by
  cases m with
  | reset program =>
    obtain ⟨fits, rfl⟩ := hostReset_inversion moved
    exact resetWith_inv s.straps s.draws fits
  | keySet k =>
    obtain ⟨_, rfl⟩ := putKey_inversion moved
    exact ⟨inv.memory, inv.counter, inv.slots⟩
  | keyClear k =>
    obtain ⟨_, rfl⟩ := putKey_inversion moved
    exact ⟨inv.memory, inv.counter, inv.slots⟩

theorem Reachable.inv (h : Reachable s) : s.Inv := by
  induction h with
  | start straps program draws fits => exact resetWith_inv straps draws fits
  | step _ moved ih => exact step_keeps_inv ih moved
  | host _ _ moved ih => exact hostMove_keeps_inv ih moved

end

/-- Settles O20: the instruction's effect keeps the invariant from the advanced state; a fault keeps everything. -/
theorem everyStepKeepsTheInvariant : Obligations.EveryStepKeepsTheInvariant := fun _ _ => step_keeps_inv

/-- Settles O19: a program that fits is laid out in canonical form, and no slot is occupied. -/
theorem invariantHoldsAfterReset : Obligations.InvariantHoldsAfterReset :=
  ⟨reset_eq_resetWith ▸ resetWith_inv defaultStraps 0 (Nat.zero_le _), fun straps _ draws => resetWith_inv straps draws⟩

/-- Settles O21: `Reset` makes a reset state, and a key move writes one key. -/
theorem everyHostMoveKeepsTheInvariant : Obligations.EveryHostMoveKeepsTheInvariant :=
  fun _ _ _ => hostMove_keeps_inv

/-- Settles O22: by induction on how the state was reached. -/
theorem reachableStatesMeetTheInvariant : Obligations.ReachableStatesMeetTheInvariant := fun _ => Reachable.inv

end Sys2Proof.Machine

/-! ### Who writes what (10_state.md R21 to R28, 20_memory.md R54) -/

namespace Sys2Proof.Machine

/-- The footprint of an instruction: the parts of the state that its effect may change. -/
def Writes (i : Instr) (s : State) (p : Part) : Prop :=
  match i with
  | .sys0nnn _ | .nop _ => False
  | .cls00E0 => ∃ j, p = .cell j
  | .drwDxyn _ _ _ => p = .reg regF ∨ ∃ j, p = .cell j
  | .jp1nnn _ | .jpBnnn _ | .se3xkk _ _ | .sne4xkk _ _ | .se5xy0 _ _ | .sne9xy0 _ _ | .skpEx9E _ | .sknpExA1 _ =>
    p = .pc
  | .call2nnn _ => (∃ k : Fin 16, p = .slot k) ∨ p = .sp ∨ p = .pc
  | .ret00EE => p = .sp ∨ p = .pc
  | .ld6xkk x _ | .add7xkk x _ | .ld8xy0 x _ | .or8xy1 x _ | .and8xy2 x _ | .xor8xy3 x _ | .ldFx07 x => p = .reg x
  | .add8xy4 x _ | .sub8xy5 x _ | .shr8xy6 x _ | .subn8xy7 x _ | .shl8xyE x _ => p = .reg x ∨ p = .reg regF
  | .rndCxkk x _ => p = .reg x ∨ p = .draws
  | .ldFx0A x => p = .reg x ∨ p = .pc
  | .ldAnnn _ | .addFx1E _ | .ldFx29 _ => p = .idx
  | .ldFx15 _ => p = .dt
  | .ldFx18 _ => p = .st
  | .ldFx33 _ => ∃ k, k < 3 ∧ p = .byte (s.idx.toNat + k)
  | .ldFx55 x => ∃ k, k < regCount s.straps.regRange x ∧ p = .byte (s.idx.toNat + k)
  | .ldFx65 x => ∃ z : Reg, z.val < regCount s.straps.regRange x ∧ p = .reg z

section
variable {i : Instr} {s t : State} {changed : Part → Prop}

theorem onlyChanges_drawSprite (x y : Reg) (rows : List Byte) (reg : changed (.reg regF))
    (cell : ∀ j, changed (.cell j)) : OnlyChanges changed s (s.drawSprite x y rows) :=
  (onlyChanges_setFb s _ cell).trans (onlyChanges_setReg _ regF _ reg)

/-- A store changes only the bytes of its range. -/
theorem onlyChanges_store {m : Memory} {a : Nat} {bs : List Byte}
    (reads : ∀ c, ({ s with mem := m } : State).byteAt c = if a ≤ c then bs.getD (c - a) (s.byteAt c) else s.byteAt c)
    (range : ∀ k, k < bs.length → changed (.byte (a + k))) : OnlyChanges changed s { s with mem := m } := by
  refine onlyChanges_mem s m fun c notChanged => ?_
  rw [reads]
  split
  next above =>
    refine List.getD_eq_default _ _ (Nat.le_of_not_lt fun inside => notChanged ?_)
    have inRange := range (c - a) inside
    rwa [Nat.add_sub_cancel' above] at inRange
  next => rfl

theorem onlyChanges_pop (pc : Word) (sp : Fin 17) (hsp : changed .sp) (hpc : changed .pc) :
    OnlyChanges changed s { s with pc := pc, sp := sp } := by
  refine .of_fields rfl ?_ ?_ (absurd hpc) ?_ (absurd hsp) ?_ ?_ ?_ ?_ ?_ ?_ ?_ <;>
    (intros; rfl)

theorem onlyChanges_push (stack : Vector Word 16) (pc : Word) (sp : Fin 17)
    (slot : ∀ k : Fin 16, ¬ changed (.slot k) → stack[k.val] = s.stack[k.val]) (hsp : changed .sp) (hpc : changed .pc) :
    OnlyChanges changed s { s with stack := stack, sp := sp, pc := pc } := by
  refine .of_fields rfl ?_ ?_ (absurd hpc) slot (absurd hsp) ?_ ?_ ?_ ?_ ?_ ?_ ?_ <;>
    (intros; rfl)

/-- An effect changes nothing outside the instruction's footprint. -/
theorem Effect.frame (h : Effect i s t) : OnlyChanges (Writes i s) s t := by
  cases i with
  | sys0nnn | nop =>
    cases h
    exact .refl
  | cls00E0 =>
    cases h
    exact onlyChanges_setFb s _ fun j => ⟨j, rfl⟩
  | drwDxyn =>
    obtain ⟨_, rfl⟩ := h
    exact onlyChanges_drawSprite _ _ _ (.inl rfl) fun j => .inr ⟨j, rfl⟩
  | jp1nnn | jpBnnn | se3xkk | sne4xkk | se5xy0 | sne9xy0 | skpEx9E | sknpExA1 =>
    cases h
    exact onlyChanges_setPc s _ rfl
  | call2nnn =>
    obtain ⟨_, rfl⟩ := h
    exact onlyChanges_push _ _ _ (fun k unlisted => absurd (.inl ⟨k, rfl⟩) unlisted) (.inr (.inl rfl)) (.inr (.inr rfl))
  | ret00EE =>
    obtain ⟨_, rfl⟩ := h
    exact onlyChanges_pop _ _ (.inl rfl) (.inr rfl)
  | ld6xkk | add7xkk | ld8xy0 | or8xy1 | and8xy2 | xor8xy3 | ldFx07 =>
    cases h
    exact onlyChanges_setReg s _ _ rfl
  | add8xy4 | sub8xy5 | shr8xy6 | subn8xy7 | shl8xyE =>
    cases h
    exact setFlagThenReg_frame s _ _ _
  | rndCxkk =>
    cases h
    exact (onlyChanges_setReg s _ _ (.inl rfl)).trans (onlyChanges_countDraw _ (.inr rfl))
  | ldFx0A =>
    obtain ⟨_, _, rfl⟩ | ⟨_, rfl⟩ := h
    · exact onlyChanges_setReg s _ _ (.inl rfl)
    · exact onlyChanges_setPc s _ (.inr rfl)
  | ldAnnn | addFx1E | ldFx29 =>
    cases h
    exact onlyChanges_setIdx s _ rfl
  | ldFx15 =>
    cases h
    exact onlyChanges_setDt s _ rfl
  | ldFx18 =>
    cases h
    exact onlyChanges_setSt s _ rfl
  | ldFx33 x =>
    obtain ⟨m, _, rfl, reads, _⟩ := h
    exact onlyChanges_store reads fun k inside => ⟨k, inside, rfl⟩
  | ldFx55 x =>
    obtain ⟨m, _, rfl, reads, _⟩ := h
    exact onlyChanges_store reads fun k inside => ⟨k, by rwa [firstRegs_regCount_length] at inside, rfl⟩
  | ldFx65 x =>
    obtain ⟨v, _, rfl, reads⟩ := h
    refine onlyChanges_regs s v fun z unlisted => ?_
    rw [reads, if_neg fun inside => unlisted ⟨z, inside, rfl⟩]

/-- What a whole step may change: the latch, the advanced `PC`, the ticked timers, and the footprint of the fetched
instruction. -/
def StepWrites (s : State) (p : Part) : Prop :=
  p = .fault ∨ p = .pc ∨ p = .dt ∨ p = .st ∨ ∃ w, s.fetches w ∧ Writes (decodeWord w) s p

theorem step_frame (stepped : step s = .next t) : OnlyChanges (StepWrites s) s t := by
  obtain ⟨_, rfl⟩ | ⟨_, _, rfl⟩ | ⟨_, _, _, _, rfl⟩ | ⟨w, u, fetched, effect, _, rfl⟩ := step_inversion stepped
  · exact .refl
  · exact onlyChanges_latchFault s _ (.inl rfl)
  · exact onlyChanges_latchFault s _ (.inl rfl)
  · have advance : OnlyChanges (StepWrites s) s s.advance := onlyChanges_setPc s _ (.inr (.inl rfl))
    have executed : OnlyChanges (StepWrites s) s.advance u :=
      effect.frame.mono fun p writes => .inr (.inr (.inr (.inr ⟨w, fetched, writes⟩)))
    have ticked : OnlyChanges (StepWrites s) u u.tick :=
      onlyChanges_tick u (.inr (.inr (.inl rfl))) (.inr (.inr (.inr (.inl rfl))))
    exact (advance.trans executed).trans ticked

/-- A part other than the latch, `PC` and the timers changes in a step only where the fetched instruction writes it. -/
theorem writes_of_step {p : Part} (stepped : step s = .next t) (changes : t.part p ≠ s.part p)
    (own : p ≠ .fault ∧ p ≠ .pc ∧ p ≠ .dt ∧ p ≠ .st) : ∃ w, s.fetches w ∧ Writes (decodeWord w) s p := by
  obtain ⟨notFault, notPc, notDt, notSt⟩ := own
  obtain ⟨_, frame⟩ := step_frame stepped
  obtain fault | pc | dt | st | writes := Classical.not_not.1 fun outside => changes (frame p outside)
  · exact absurd fault notFault
  · exact absurd pc notPc
  · exact absurd dt notDt
  · exact absurd st notSt
  · exact writes

/-! The writers of each part: the footprints read the other way round. -/

theorem bool_toNat_injective : Function.Injective Bool.toNat := by decide

theorem not_writes_key (k : Fin 16) : ¬ Writes i s (.key k) := by
  cases i <;> simp [Writes]

theorem writes_cell_iff (j : Nat) : Writes i s (.cell j) ↔ i = .cls00E0 ∨ ∃ x y n, i = .drwDxyn x y n := by
  cases i <;> simp [Writes]

theorem writes_idx_iff :
    Writes i s .idx ↔ (∃ nnn, i = .ldAnnn nnn) ∨ (∃ x, i = .ldFx29 x) ∨ (∃ x, i = .addFx1E x) := by
  cases i <;> simp [Writes]

theorem writes_sp_iff : Writes i s .sp ↔ (∃ nnn, i = .call2nnn nnn) ∨ i = .ret00EE := by
  cases i <;> simp [Writes]

theorem writes_slot_iff (k : Fin 16) : Writes i s (.slot k) ↔ ∃ nnn, i = .call2nnn nnn := by
  cases i <;> simp [Writes]

theorem writes_byte (a : Nat) (h : Writes i s (.byte a)) : ∃ x,
    (i = .ldFx33 x ∧ s.idx.toNat ≤ a ∧ a ≤ s.idx.toNat + 2) ∨
    (i = .ldFx55 x ∧ s.idx.toNat ≤ a ∧ a < s.idx.toNat + regCount s.straps.regRange x) := by
  cases i with
  | ldFx33 x =>
    obtain ⟨k, inside, named⟩ := h
    cases named
    exact ⟨x, .inl ⟨rfl, by omega, by omega⟩⟩
  | ldFx55 x =>
    obtain ⟨k, inside, named⟩ := h
    cases named
    exact ⟨x, .inr ⟨rfl, by omega, by omega⟩⟩
  | _ => simp [Writes] at h

/-- The last register is in the range of a transfer only where the range is inclusive and names it (R146). -/
theorem regF_lt_regCount_iff (mode : RegRangeMode) (x : Reg) :
    regF.val < regCount mode x ↔ x = regF ∧ mode = .inclusive := by
  have last : regF.val = 15 := rfl
  cases mode with
  | exclusive => simp only [regCount, reduceCtorEq, and_false, iff_false]; omega
  | inclusive => simp only [regCount, Fin.ext_iff, and_true]; omega

theorem writes_regF (h : Writes i s (.reg regF)) :
    (∃ x y, i = .add8xy4 x y ∨ i = .sub8xy5 x y ∨ i = .shr8xy6 x y ∨ i = .subn8xy7 x y ∨ i = .shl8xyE x y) ∨
    (∃ x y n, i = .drwDxyn x y n) ∨
    (∃ kk, i = .ld6xkk regF kk ∨ i = .add7xkk regF kk ∨ i = .rndCxkk regF kk) ∨
    (∃ y, i = .ld8xy0 regF y ∨ i = .or8xy1 regF y ∨ i = .and8xy2 regF y ∨ i = .xor8xy3 regF y) ∨
    i = .ldFx07 regF ∨ i = .ldFx0A regF ∨ (i = .ldFx65 regF ∧ s.straps.regRange = .inclusive) := by
  cases i with
  | ldFx65 x =>
    obtain ⟨z, inside, named⟩ := h
    cases named
    obtain ⟨rfl, inclusive⟩ := (regF_lt_regCount_iff _ _).1 inside
    simp [inclusive]
  | _ => simp_all [Writes]

end

/-- Settles O24: no footprint holds a key. -/
theorem keypadIsWrittenByTheHostOnly : Obligations.KeypadIsWrittenByTheHostOnly := by
  intro s t stepped
  refine Vector.ext fun k hk => ?_
  by_contra changes
  obtain ⟨w, _, writes⟩ := writes_of_step (p := .key ⟨k, hk⟩) stepped (bool_toNat_injective.ne changes) (by simp)
  exact not_writes_key _ writes

/-- Settles O25: the two instructions with cells in their footprint. -/
theorem displayIsWrittenByClearAndDrawOnly : Obligations.DisplayIsWrittenByClearAndDrawOnly := by
  intro s t stepped changes
  obtain ⟨j, _, changesCell⟩ : ∃ j, j < 2048 ∧ t.cell j ≠ s.cell j := by
    by_contra! same
    exact changes (BitVec.eq_of_getLsbD_eq same)
  obtain ⟨w, fetched, writes⟩ :=
    writes_of_step (p := .cell j) stepped (bool_toNat_injective.ne changesCell) (by simp)
  exact ⟨w, fetched, (writes_cell_iff j).1 writes⟩

/-- Settles O26: the two instructions with bytes in their footprint, and which bytes those are. -/
theorem memoryIsWrittenByTwoStoresOnly : Obligations.MemoryIsWrittenByTwoStoresOnly := by
  intro s t a stepped changes
  obtain ⟨w, fetched, writes⟩ :=
    writes_of_step (p := .byte a) stepped (fun e => changes (BitVec.eq_of_toNat_eq e)) (by simp)
  obtain ⟨x, store⟩ := writes_byte a writes
  exact ⟨w, x, fetched, store⟩

/-- Settles O27: the instructions with `I`, with `SP` and with a slot in their footprint. -/
theorem indexAndStackWriters : Obligations.IndexAndStackWriters := by
  intro s t stepped
  refine ⟨fun changes => ?_, fun changes => ?_, fun changes => ?_⟩
  · obtain ⟨w, fetched, writes⟩ :=
      writes_of_step (p := .idx) stepped (fun e => changes (BitVec.eq_of_toNat_eq e)) (by simp)
    exact ⟨w, fetched, writes_idx_iff.1 writes⟩
  · obtain ⟨w, fetched, writes⟩ := writes_of_step (p := .sp) stepped (fun e => changes (Fin.ext e)) (by simp)
    exact ⟨w, fetched, writes_sp_iff.1 writes⟩
  · obtain ⟨k, changesSlot⟩ : ∃ k : Fin 16, t.stack[k.val] ≠ s.stack[k.val] := by
      by_contra! same
      exact changes (Vector.ext fun k hk => same ⟨k, hk⟩)
    obtain ⟨w, fetched, writes⟩ :=
      writes_of_step (p := .slot k) stepped (fun e => changesSlot (BitVec.eq_of_toNat_eq e)) (by simp)
    obtain ⟨nnn, call⟩ := (writes_slot_iff k).1 writes
    exact ⟨w, nnn, fetched, call⟩

/-- Settles O28: a fault keeps the registers, and an effect keeps `VF` outside the footprints that hold it. -/
theorem flagRegisterWriters : Obligations.FlagRegisterWriters := by
  intro i s t executed changes
  obtain ⟨f, _, rfl⟩ | effect := exec_inversion executed
  · exact absurd rfl changes
  · refine writes_regF (s := s) (Classical.not_not.1 fun outside => changes ?_)
    exact BitVec.eq_of_toNat_eq (effect.frame.2 (.reg regF) outside)

/-! ### The random byte (44_timer_keypad_random.md R168) -/

/-- The state with another number of bytes drawn. -/
def State.withDraws (s : State) (d : Nat) : State := { s with draws := d }

section
variable (s : State) (d : Nat)

@[simp] theorem withDraws_idx : (s.withDraws d).idx = s.idx := rfl

@[simp] theorem withDraws_straps : (s.withDraws d).straps = s.straps := rfl

@[simp] theorem withDraws_lowestKey : (s.withDraws d).lowestKey = s.lowestKey := rfl

theorem writeBytes_withDraws (a : Nat) (bs : List Byte) :
    (s.withDraws d).writeBytes a bs = (s.writeBytes a bs).map (State.withDraws · d) := by
  induction bs generalizing s a with
  | nil => rfl
  | cons b bs ih =>
    simp only [State.writeBytes, State.memWrite]
    split_ifs
    · exact ih (s.putByte a b) (a + 1)
    · rfl

theorem readBytes_withDraws (a n : Nat) : (s.withDraws d).readBytes a n = s.readBytes a n := by
  rw [readBytes_eq, readBytes_eq]
  rfl

theorem setRegsFrom_withDraws (j : Nat) (bs : List Byte) :
    (s.withDraws d).setRegsFrom j bs = (s.setRegsFrom j bs).withDraws d := by
  induction bs generalizing s j with
  | nil => rfl
  | cons b bs ih =>
    simp only [State.setRegsFrom]
    split_ifs
    · exact ih (s.setReg _ b) (j + 1)
    · exact ih s (j + 1)

theorem skipIf_withDraws (c : Bool) : (s.withDraws d).skipIf c = (s.skipIf c).withDraws d := by
  cases c <;> rfl

theorem pushPc_withDraws : (s.withDraws d).pushPc = s.pushPc.map (State.withDraws · d) := by
  by_cases free : s.sp.val < 16
  · rw [pushPc_ok s free]
    exact pushPc_ok (s.withDraws d) free
  · have full : s.sp.val = 16 := by omega
    rw [pushPc_full s full]
    exact pushPc_full (s.withDraws d) full

theorem popPc_withDraws : (s.withDraws d).popPc = s.popPc.map (State.withDraws · d) := by
  by_cases occupied : 0 < s.sp.val
  · rw [popPc_ok s occupied]
    exact popPc_ok (s.withDraws d) occupied
  · have empty : s.sp.val = 0 := by omega
    rw [popPc_empty s empty]
    exact popPc_empty (s.withDraws d) empty

/-- The answer with another number of bytes drawn. -/
def Result.withDraws (d : Nat) : Result → Result
  | .next t => .next (t.withDraws d)
  | .fault f => .fault f
  | .refused r => .refused r

theorem settle_withDraws (r : Except Fault State) :
    settle (s.withDraws d) (r.map (State.withDraws · d)) = Result.withDraws d (settle s r) := by
  cases r <;> rfl

/-- An instruction other than `RND` does not see the number of bytes drawn, and keeps it. -/
theorem exec_withDraws {i : Instr} (notRnd : ∀ x kk, i ≠ .rndCxkk x kk) :
    exec i (s.withDraws d) = Result.withDraws d (exec i s) := by
  cases i with
  | rndCxkk x kk => exact absurd rfl (notRnd x kk)
  | se3xkk | sne4xkk | se5xy0 | sne9xy0 | skpEx9E | sknpExA1 => exact congrArg _ (skipIf_withDraws s d _)
  | call2nnn nnn =>
    simp only [exec, execCall2nnn, pushPc_withDraws]
    cases s.pushPc <;> rfl
  | ret00EE =>
    simp only [exec, execRet00EE, popPc_withDraws]
    exact settle_withDraws s d _
  | ldFx33 | ldFx55 =>
    simp only [exec, execLdFx33, execLdFx55, writeBytes_withDraws]
    exact settle_withDraws s d _
  | ldFx65 x =>
    simp only [exec, execLdFx65, withDraws_idx, withDraws_straps, readBytes_withDraws, setRegsFrom_withDraws]
    cases s.readBytes s.idx.toNat (regCount s.straps.regRange x) <;> rfl
  | drwDxyn x y n =>
    simp only [exec, execDrwDxyn, withDraws_idx, readBytes_withDraws]
    cases s.readBytes s.idx.toNat n.toNat <;> rfl
  | ldFx0A x =>
    simp only [exec, execLdFx0A, withDraws_lowestKey]
    cases s.lowestKey <;> rfl
  | _ => rfl

end

/-- Settles O29: every operation of the other instructions carries the counter along unseen. -/
theorem onlyRndReadsTheRandomByte : Obligations.OnlyRndReadsTheRandomByte := by
  intro i s t d notRnd executed
  have unseen := exec_withDraws s d notRnd
  rw [executed] at unseen
  exact unseen

end Sys2Proof.Machine

/-! ### Reset's memory and display, the keypad moves and the frame-buffer read (10_state.md R34 to R37,
44_timer_keypad_random.md R170, 45_display.md R188) -/

namespace Sys2Proof.Machine

theorem resetByte_glyph (glyph : Vector Byte 80) (i : Fin 80) : resetByte glyph (0x050 + i.val) = glyph[i.val] := by
  have inTable : glyphBase ≤ 0x050 + i.val ∧ 0x050 + i.val < glyphBase + glyphSize := by
    simp only [glyphBase, glyphSize]
    omega
  rw [resetByte, dif_pos inTable]
  simp only [glyphBase, Nat.add_sub_cancel_left]

theorem resetByte_outside (glyph : Vector Byte 80) {a : Nat} (outside : a < 0x050 ∨ 0x0A0 ≤ a) :
    resetByte glyph a = 0 := by
  rw [resetByte, dif_neg]
  simp only [glyphBase, glyphSize]
  omega

/-- The bytes after `Reset`: the program's from `0x200` on, and the reset bytes elsewhere (R34, R230). -/
theorem resetWith_byteAt (straps : Straps) (program : List Byte) (draws a : Nat) :
    (State.resetWith straps program draws).byteAt a =
      if programBase ≤ a then program.getD (a - programBase) (resetByte straps.glyph a) else resetByte straps.glyph a :=
  Memory.get_ofBytes programBase program a

theorem resetWith_byteAt_glyph (straps : Straps) (program : List Byte) (draws : Nat) (i : Fin 80) :
    (State.resetWith straps program draws).byteAt (0x050 + i.val) = straps.glyph[i.val] := by
  rw [resetWith_byteAt, if_neg (by simp only [programBase]; omega), resetByte_glyph]

theorem resetWith_byteAt_program (straps : Straps) (program : List Byte) (draws : Nat) {i : Nat}
    (h : i < program.length) : (State.resetWith straps program draws).byteAt (0x200 + i) = program[i] := by
  have above : programBase ≤ 0x200 + i := Nat.le_add_right 0x200 i
  rw [resetWith_byteAt, if_pos above, programBase, Nat.add_sub_cancel_left]
  exact List.getD_eq_getElem _ _ h

theorem resetWith_byteAt_zero (straps : Straps) (program : List Byte) (draws : Nat) {a : Nat}
    (h : a < 0x050 ∨ (0x0A0 ≤ a ∧ a < 0x200) ∨ 0x200 + program.length ≤ a) :
    (State.resetWith straps program draws).byteAt a = 0 := by
  have zero : resetByte straps.glyph a = 0 := resetByte_outside straps.glyph (by omega)
  rw [resetWith_byteAt, zero]
  split
  next above =>
    have : programBase = 0x200 := rfl
    exact List.getD_eq_default _ _ (by omega)
  next => rfl

/-- Settles O2: the reset state's bytes by their range of addresses, its other fields by computation. -/
theorem resetFillsMemoryAndClearsDisplayKeypadLatch : Obligations.ResetFillsMemoryAndClearsDisplayKeypadLatch := by
  intro s program
  refine ⟨fun fits => ⟨_, hostReset_of_fits fits s, rfl, ?_, ?_, ?_, ?_, ?_, rfl⟩, fun long => ?_⟩
  · exact resetWith_byteAt_glyph s.straps program s.draws
  · exact fun i h => resetWith_byteAt_program s.straps program s.draws h
  · exact fun a h => resetWith_byteAt_zero s.straps program s.draws h
  · exact fun i => BitVec.getLsbD_zero
  · exact fun k => Vector.getElem_replicate k.isLt
  · exact if_neg (Nat.not_le_of_lt long)

theorem putKey_writes_key (s : State) (k : Fin 16) (b : Bool) :
    ∃ t, s.putKey k.val b = .next t ∧ (readKeys t)[k.val] = b ∧ OnlyChanges (· = .key k) s t := by
  refine ⟨_, dif_pos k.isLt, Vector.getElem_set_self .., ?_⟩
  have others : ∀ j : Fin 16, ¬ Part.key j = .key k → (s.key.set k.val b)[j.val] = s.key[j.val] := fun j other =>
    Vector.getElem_set_ne k.isLt j.isLt fun e => other (congrArg Part.key (Fin.ext e.symm))
  refine .of_fields rfl ?_ ?_ ?_ ?_ ?_ ?_ ?_ others ?_ ?_ ?_ ?_ <;> (intros; rfl)

theorem putKey_of_out_of_range (s : State) {k : Nat} (h : 15 < k) (b : Bool) :
    s.putKey k b = .refused .keyIndexOutOfRange := dif_neg (by omega)

/-- Settles O3: both moves write one key. -/
theorem keySetAndKeyClearWriteOneKey : Obligations.KeySetAndKeyClearWriteOneKey :=
  ⟨fun s k => ⟨putKey_writes_key s k true, putKey_writes_key s k false⟩,
    fun s _ h => ⟨putKey_of_out_of_range s h true, putKey_of_out_of_range s h false⟩⟩

/-- Blocks of `m` entries laid one after another: entry `j` of block `i` stands at `m * i + j`. -/
theorem flatMap_getElem?_of_const {α β : Type} {f : α → List β} {m : Nat} (hf : ∀ a, (f a).length = m) (l : List α)
    (i : Nat) {j : Nat} (hj : j < m) : (l.flatMap f)[m * i + j]? = l[i]?.bind fun a => (f a)[j]? := by
  induction l generalizing i with
  | nil => simp
  | cons a l ih =>
    rw [List.flatMap_cons]
    cases i with
    | zero =>
      rw [List.getElem?_append_left (by rw [hf]; omega)]
      simp
    | succ i =>
      have next : m * (i + 1) + j - (f a).length = m * i + j := by rw [hf]; grind
      rw [List.getElem?_append_right (by rw [hf]; grind), next, ih, List.getElem?_cons_succ]

theorem cellColor_length (on off : Vector Byte 4) (lit : Bool) : (cellColor on off lit).length = 4 := by
  cases lit <;> simp [cellColor]

theorem cellColor_getElem? (on off : Vector Byte 4) (lit : Bool) (j : Fin 4) :
    (cellColor on off lit)[j.val]? = some (if lit then on[j.val] else off[j.val]) := by
  cases lit <;> simp [cellColor]

/-- Settles O4: the read lays out one block of four bytes for each cell. -/
theorem frameBufferReadGivesFourBytesPerCell : Obligations.FrameBufferReadGivesFourBytesPerCell := by
  intro on off s
  have blocks : ∀ i, (cellColor on off (s.cell i)).length = 4 := fun i => cellColor_length on off _
  refine ⟨?_, fun i j => ?_⟩
  · simp only [readFrameBuffer, List.length_flatMap, blocks, List.map_const', List.sum_replicate, List.length_range,
      smul_eq_mul]
  · rw [readFrameBuffer, flatMap_getElem?_of_const blocks _ _ j.isLt, List.getElem?_range i.isLt]
    exact cellColor_getElem? on off _ j

end Sys2Proof.Machine

/-! ### The step: fetch, execute, tick, and the halted machine (40_engine_step.md R90 to R96, 60_exceptions.md
R205) -/

namespace Sys2Proof.Machine

theorem setPc_frame (s : State) (pc : Word) : OnlyChanges (· = .pc) s (s.setPc pc) := onlyChanges_setPc s pc rfl

/-- The tick takes one from each timer that is not at 0, and touches nothing else (44_timer_keypad_random.md R160). -/
theorem tick_frame (s : State) : OnlyChanges (fun p => p = .dt ∨ p = .st) s s.tick :=
  onlyChanges_tick s (.inl rfl) (.inr rfl)

/-- Settles O10: the end of the step is a tick where no fault is latched, and nothing where one is. -/
theorem stepRunsTheDecodedInstruction : Obligations.StepRunsTheDecodedInstruction := by
  intro s w i fetched decoded
  obtain ⟨t, executed⟩ := exec_next i s.advance
  refine ⟨rfl, setPc_frame s _, t, executed, _, step_next_of_exec fetched (by rw [decoded, executed]), ?_, ?_⟩
  · exact finish_halted t
  · intro running
    rw [finish_running t running]
    exact ⟨tickByte_toNat t.dt, tickByte_toNat t.st, tick_frame t⟩

theorem wordOfBytes_toNat (hi lo : Byte) : (wordOfBytes hi lo).toNat = 256 * hi.toNat + lo.toNat := by
  rw [wordOfBytes, BitVec.toNat_append, ← Nat.shiftLeft_add_eq_or_of_lt lo.isLt, Nat.shiftLeft_eq]
  omega

/-- Settles O11: the fetch is decided by `PC`, and a fetch outside memory latches. -/
theorem fetchReadsBigEndianWordOrFaults : Obligations.FetchReadsBigEndianWordOrFaults := by
  refine fun s => ⟨fun inRange => ⟨_, ?_, wordOfBytes_toNat _ _⟩, fun running out => ?_⟩
  · rw [fetch_eq, if_pos inRange]
  · exact ⟨_, step_fetch_faults running out, rfl, onlyChanges_latchFault s _ rfl⟩

theorem putKey_keeps_fault {k : Nat} {b : Bool} {s t : State} (h : s.putKey k b = .next t) : t.fault = s.fault := by
  obtain ⟨_, rfl⟩ := putKey_inversion h
  rfl

/-- Settles O12: a halted step is the identity, a key move leaves the latch, and `Reset` makes a running state. -/
theorem haltedMachineIsFrozenUntilReset : Obligations.HaltedMachineIsFrozenUntilReset := by
  refine fun s halted => ⟨step_halted halted, fun k t moved => ?_, fun program t moved => ?_⟩
  · exact moved.elim putKey_keeps_fault putKey_keeps_fault
  · obtain ⟨_, rfl⟩ := hostReset_inversion moved
    rfl

/-- A step whose instruction ends running: its state, ticked. -/
theorem step_of_exec_running {s u : State} {w : Word} {i : Instr} (fetched : s.fetches w) (decoded : decodeWord w = i)
    (executed : exec i s.advance = .next u) (running : u.running) : step s = .next u.tick := by
  subst decoded
  rw [step_next_of_exec fetched executed, finish_running u running]

/-- A step whose instruction does nothing (R95, R96). -/
theorem step_of_no_op {s : State} {w : Word} {i : Instr} (fetched : s.fetches w) (decoded : decodeWord w = i)
    (executed : exec i s.advance = .next s.advance) :
    ∃ t, step s = .next t ∧ t.pc = s.pc + 2 ∧ t.dt.toNat = s.dt.toNat - 1 ∧ t.st.toNat = s.st.toNat - 1 ∧
      OnlyChanges (fun p => p = .pc ∨ p = .dt ∨ p = .st) s t := by
  have advance : OnlyChanges (fun p => p = .pc ∨ p = .dt ∨ p = .st) s s.advance := onlyChanges_setPc s _ (.inl rfl)
  exact ⟨_, step_of_exec_running fetched decoded executed fetched.1, rfl, tickByte_toNat s.dt, tickByte_toNat s.st,
    advance.trans ((tick_frame _).mono fun _ => .inr)⟩

theorem exec_nop (w : Word) (s : State) : exec (.nop w) s = .next s := rfl

theorem exec_sys0nnn (nnn : Addr12) (s : State) : exec (.sys0nnn nnn) s = .next s := rfl

/-- Settles O30: an unmatched word decodes to the fallback. -/
theorem unmatchedWordRunsAsNoOp : Obligations.UnmatchedWordRunsAsNoOp := by
  refine ⟨exec_nop, fun w s unmatched fetched => ?_⟩
  exact step_of_no_op fetched ((decodeWord_eq_nop_iff w).2 unmatched) (exec_nop w s.advance)

/-- Settles O31: a word of class 0 outside the two exact rows decodes to `SYS`. -/
theorem sysRunsAsNoOp : Obligations.SysRunsAsNoOp := by
  refine ⟨exec_sys0nnn, fun w s op notCls notRet fetched => ?_⟩
  obtain ⟨nnn, sys⟩ := (decodeWord_eq_sys_iff w).2 ⟨op, notCls, notRet⟩
  exact step_of_no_op fetched sys (exec_sys0nnn nnn s.advance)

end Sys2Proof.Machine

/-! ### The program counter after a step (42_control_flow.md R129) -/

namespace Sys2Proof.Machine

theorem lowNibble_toNat (a : Byte) : (lowNibble a).toNat = a.toNat % 16 := by
  rw [lowNibble, BitVec.extractLsb'_toNat, Nat.shiftRight_zero]

/-- The key that a register names, looked up by number (44_timer_keypad_random.md R165). -/
theorem keyOf_eq_getD (s : State) (a : Byte) : s.keyOf a = s.key.toList.getD (a.toNat % 16) false := by
  simp [State.keyOf, lowNibble_toNat, List.getD_eq_getElem?_getD, Nat.mod_lt]

theorem mem_key_iff (s : State) : true ∈ s.key.toList ↔ ∃ k, s.lowestKey = some k := by
  rw [← Option.ne_none_iff_exists', Ne, lowestKey_none, Vector.mem_toList_iff, Vector.mem_iff_getElem]
  simp

/-- Where a step that may skip takes `PC`, from its own address. -/
theorem skip_pc_toNat {pc : Word} (h : pc.toNat ≤ 0xFFE) (p : Prop) [Decidable p] :
    (if p then pc + 2 + 2 else pc + 2).toNat = pc.toNat + (if p then 4 else 2) ∧
    (if p then pc + 2 else pc + 2 + 2).toNat = pc.toNat + (if p then 2 else 4) := by
  constructor <;> split <;> bv_omega

/-- Settles O18: the effect of each instruction on the advanced `PC`. -/
theorem programCounterAfterEveryStep : Obligations.ProgramCounterAfterEveryStep := by
  intro s t w fetched stepped running
  obtain ⟨u, effect, rfl⟩ := step_inversion_running fetched stepped running
  have inRange : s.pc.toNat ≤ 0xFFE := fetched.2.1
  have advanced : s.advance.pc.toNat = s.pc.toNat + 2 := advance_pc_toNat fetched
  rw [tick_pc]
  generalize decodeWord w = i at effect ⊢
  cases i with
  | jp1nnn nnn =>
    cases effect
    exact addrWord_toNat nnn
  | call2nnn nnn =>
    obtain ⟨_, rfl⟩ := effect
    exact addrWord_toNat nnn
  | jpBnnn nnn =>
    cases effect
    exact addrWord_add_byteWord_toNat nnn _
  | ret00EE =>
    obtain ⟨occupied, rfl⟩ := effect
    have top : s.sp.val - 1 < 16 := by omega
    simp [List.getD_eq_getElem?_getD, top]
  | se3xkk | se5xy0 =>
    cases effect
    exact (skip_pc_toNat inRange _).1
  | sne4xkk | sne9xy0 =>
    cases effect
    exact (skip_pc_toNat inRange _).2
  | skpEx9E =>
    cases effect
    rw [keyOf_eq_getD]
    exact (skip_pc_toNat inRange _).1
  | sknpExA1 =>
    cases effect
    rw [keyOf_eq_getD]
    exact (skip_pc_toNat inRange _).2
  | ldFx0A =>
    obtain ⟨k, found, rfl⟩ | ⟨notFound, rfl⟩ := effect
    · have pressed : true ∈ s.key.toList := (mem_key_iff s).2 ⟨k, found⟩
      simp only [pressed, if_true]
      exact advanced
    · have notPressed : true ∉ s.key.toList := fun pressed => by
        obtain ⟨k, found⟩ := (mem_key_iff s).1 pressed
        cases notFound.symm.trans found
      simp [notPressed]
  | ldFx33 | ldFx55 | ldFx65 =>
    obtain ⟨_, _, rfl, _⟩ := effect
    exact advanced
  | drwDxyn =>
    obtain ⟨_, rfl⟩ := effect
    exact advanced
  | _ =>
    cases effect
    exact advanced

end Sys2Proof.Machine

/-! ### Arithmetic, logic and shift instructions (41_alu.md R101 to R109) -/

namespace Sys2Proof.Machine

theorem exec_add7xkk (x : Reg) (kk : Byte) (s : State) :
    exec (.add7xkk x kk) s = .next (s.setReg x (s.reg x + kk)) := rfl

theorem exec_or8xy1 (x y : Reg) (s : State) : exec (.or8xy1 x y) s = .next (s.setReg x (s.reg x ||| s.reg y)) := rfl

theorem exec_and8xy2 (x y : Reg) (s : State) : exec (.and8xy2 x y) s = .next (s.setReg x (s.reg x &&& s.reg y)) := rfl

theorem exec_xor8xy3 (x y : Reg) (s : State) : exec (.xor8xy3 x y) s = .next (s.setReg x (s.reg x ^^^ s.reg y)) := rfl

theorem exec_subn8xy7 (x y : Reg) (s : State) : exec (.subn8xy7 x y) s =
    .next (s.setFlagThenReg (greaterFlag (s.reg y) (s.reg x)) x (s.reg y - s.reg x)) := rfl

theorem exec_shr8xy6 (x y : Reg) (s : State) : exec (.shr8xy6 x y) s =
    .next (s.setFlagThenReg (shrFlagByte s.straps.shrFlag (s.reg x)) x (s.reg x >>> 1)) := rfl

theorem exec_shl8xyE (x y : Reg) (s : State) : exec (.shl8xyE x y) s =
    .next (s.setFlagThenReg (shlFlagByte (s.reg x)) x (s.reg x <<< 1)) := rfl

/-- The register of an instruction that writes a flag and then its result holds the result, also where it is `VF`
(10_state.md R22). -/
theorem setFlagThenReg_reg_self (s : State) (f : Byte) (x : Reg) (r : Byte) : (s.setFlagThenReg f x r).reg x = r :=
  setFlagThenReg_reg_result s f x r

/-- Settles O32: one register is written, with the sum. -/
theorem addImmediateWrapsWithoutFlag : Obligations.AddImmediateWrapsWithoutFlag := by
  intro x kk s
  refine ⟨_, exec_add7xkk x kk s, ?_, setReg_frame s x _⟩
  rw [setReg_reg_same, BitVec.toNat_add]

/-- Settles O33: one register is written, bit by bit. -/
theorem logicInstructionsWorkBitwiseWithoutFlag : Obligations.LogicInstructionsWorkBitwiseWithoutFlag := by
  intro x y s
  refine ⟨⟨_, exec_or8xy1 x y s, setReg_frame s x _, fun i => ?_⟩,
    ⟨_, exec_and8xy2 x y s, setReg_frame s x _, fun i => ?_⟩, ⟨_, exec_xor8xy3 x y s, setReg_frame s x _, fun i => ?_⟩⟩
  · rw [setReg_reg_same, BitVec.getLsbD_or]
  · rw [setReg_reg_same, BitVec.getLsbD_and]
  · rw [setReg_reg_same, BitVec.getLsbD_xor]

/-- Settles O36: the subtraction with its operands exchanged. -/
theorem reverseSubSetsGreaterThenResult : Obligations.ReverseSubSetsGreaterThenResult := by
  intro x y s
  refine ⟨_, exec_subn8xy7 x y s, ?_, fun hx => ?_, setFlagThenReg_frame ..⟩
  · rw [setFlagThenReg_reg_self, byte_sub_toNat]
  · rw [setFlagThenReg_reg_flag s _ hx, greaterFlag_toNat]

/-- A bit of a byte, as a number. -/
theorem byteBit_toNat (a : Byte) (i : Nat) : (a.getLsbD i).toNat = a.toNat / 2 ^ i % 2 := by
  rw [BitVec.getLsbD, Nat.testBit_eq_decide_div_mod_eq]
  obtain e | e := Nat.mod_two_eq_zero_or_one (a.toNat / 2 ^ i) <;> simp [e]

theorem shrFlagByte_lowBit_toNat (a : Byte) : (shrFlagByte .lowBit a).toNat = a.toNat % 2 := by
  rw [shrFlagByte, flagByte_toNat, byteBit_toNat, pow_zero, Nat.div_one]

theorem shrFlagByte_legacyValue (a : Byte) : shrFlagByte .legacyValue a = a := rfl

theorem shlFlagByte_toNat (a : Byte) : (shlFlagByte a).toNat = a.toNat / 128 := by
  have : a.toNat < 256 := a.isLt
  rw [shlFlagByte, flagByte_toNat, byteBit_toNat]
  omega

/-- Settles O37: the result is written last, and the flag is the mode's where the result leaves it. -/
theorem shiftRightFlagByMode : Obligations.ShiftRightFlagByMode := by
  intro x y s
  refine ⟨_, exec_shr8xy6 x y s, ?_, fun hx => ?_, setFlagThenReg_frame ..⟩
  · rw [setFlagThenReg_reg_self, BitVec.toNat_ushiftRight, Nat.shiftRight_one]
  · rw [setFlagThenReg_reg_flag s _ hx]
    cases s.straps.shrFlag with
    | lowBit => exact shrFlagByte_lowBit_toNat _
    | legacyValue => exact congrArg BitVec.toNat (shrFlagByte_legacyValue _)

/-- Settles O38: the result is written last, and the flag is the high bit where the result leaves it. -/
theorem shiftLeftSetsHighBitFlag : Obligations.ShiftLeftSetsHighBitFlag := by
  intro x y s
  refine ⟨_, exec_shl8xyE x y s, ?_, fun hx => ?_, setFlagThenReg_frame ..⟩
  · rw [setFlagThenReg_reg_self, BitVec.toNat_shiftLeft, Nat.shiftLeft_eq, pow_one]
  · rw [setFlagThenReg_reg_flag s _ hx, shlFlagByte_toNat]

end Sys2Proof.Machine

/-! ### Control transfer (42_control_flow.md R121 to R128, 44_timer_keypad_random.md R165 to R167) -/

namespace Sys2Proof.Machine

theorem exec_jp1nnn (nnn : Addr12) (s : State) : exec (.jp1nnn nnn) s = .next (s.setPc (addrWord nnn)) := rfl

theorem exec_jpBnnn (nnn : Addr12) (s : State) :
    exec (.jpBnnn nnn) s = .next (s.setPc (addrWord nnn + byteWord (s.reg 0))) := rfl

/-- Settles O39: the address field is the new `PC`. -/
theorem jumpLoadsTheAddress : Obligations.JumpLoadsTheAddress := fun nnn =>
  ⟨decodeWord_encode (.jp1nnn nnn) rfl, fun s => ⟨_, exec_jp1nnn nnn s, addrWord_toNat nnn, setPc_frame s _⟩⟩

/-- Settles O40: the sum of a 12-bit and an 8-bit number fits in `PC`. -/
theorem indexedJumpAddsRegisterZero : Obligations.IndexedJumpAddsRegisterZero := by
  intro nnn s
  have sum := addrWord_add_byteWord_toNat nnn (s.reg 0)
  refine ⟨_, exec_jpBnnn nnn s, sum, ?_, setPc_frame s _⟩
  have : nnn.toNat < 4096 := nnn.isLt
  have : (s.reg 0).toNat < 256 := (s.reg 0).isLt
  rw [setPc_pc, sum]
  omega

/-- Settles O41: the push onto a free slot, or the fault of a full stack. -/
theorem callPushesReturnAddressOrFaults : Obligations.CallPushesReturnAddressOrFaults := by
  intro nnn
  have decoded : decodeWord (wordNNN 0x2 nnn) = .call2nnn nnn := decodeWord_encode (.call2nnn nnn) rfl
  refine ⟨decoded, fun s k top => ?_, fun s full fetched => ?_⟩
  · have free : s.sp.val < 16 := top ▸ k.isLt
    refine ⟨_, execCall2nnn_ok s nnn free, by simp [← top], rfl, addrWord_toNat nnn, ?_⟩
    refine onlyChanges_push _ _ _ (fun j other => ?_) (.inr (.inl rfl)) (.inr (.inr rfl))
    refine Vector.getElem_set_ne (hi := free) (hj := j.isLt) fun e => other (.inl ?_)
    rw [Fin.ext (e.symm.trans top)]
  · exact step_of_faults_frame fetched (by rw [decoded]; exact ⟨rfl, full⟩)

/-- Settles O42: the pop of an occupied slot, or the fault of an empty stack. -/
theorem returnPopsOrFaults : Obligations.ReturnPopsOrFaults := by
  have decoded : decodeWord 0x00EE = .ret00EE := decodeWord_encode .ret00EE rfl
  refine ⟨decoded, fun s k top => ?_, fun s empty fetched => ?_⟩
  · refine ⟨_, execRet00EE_ok s (by omega), ?_, ?_, onlyChanges_pop _ _ (.inl rfl) (.inr rfl)⟩
    · simp [top]
    · simp [top]
  · exact step_of_faults_frame fetched (by rw [decoded]; exact ⟨rfl, empty⟩)

section
variable {i : Instr} {s : State} {c : Bool} {p : Prop} [Decidable p]

/-- An instruction that skips where `p` holds moves only `PC`. -/
theorem exec_skips_iff (executed : exec i s = .next (s.skipIf c)) (hc : c = true ↔ p) :
    ∃ t, exec i s = .next t ∧ OnlyChanges (· = .pc) s t ∧ t.pc = if p then s.pc + 2 else s.pc := by
  rw [skipIf_eq] at executed
  refine ⟨_, executed, setPc_frame s _, ?_⟩
  simp only [setPc_pc, hc]

/-- An instruction that skips where `p` does not hold moves only `PC`. -/
theorem exec_skips_iff_not (executed : exec i s = .next (s.skipIf c)) (hc : c = true ↔ ¬ p) :
    ∃ t, exec i s = .next t ∧ OnlyChanges (· = .pc) s t ∧ t.pc = if p then s.pc else s.pc + 2 := by
  obtain ⟨t, executed, frame, pc⟩ := exec_skips_iff executed hc
  exact ⟨t, executed, frame, by rw [pc, ite_not]⟩

end

theorem byte_beq_iff (a b : Byte) : (a == b) = true ↔ a.toNat = b.toNat := by
  rw [beq_iff_eq, BitVec.toNat_inj]

theorem byte_bne_iff (a b : Byte) : (a != b) = true ↔ ¬ a.toNat = b.toNat := by
  rw [bne_iff_ne, Ne, BitVec.toNat_inj]

/-- Settles O43: each skip is decided by the comparison of its operands. -/
theorem conditionalSkipsMoveOnlyTheCounter : Obligations.ConditionalSkipsMoveOnlyTheCounter := by
  intro x y kk
  refine ⟨decodeWord_encode (.se3xkk x kk) rfl, decodeWord_encode (.sne4xkk x kk) rfl,
    decodeWord_encode (.se5xy0 x y) rfl, decodeWord_encode (.sne9xy0 x y) rfl, fun s => ⟨?_, ?_, ?_, ?_⟩⟩
  · exact exec_skips_iff rfl (byte_beq_iff _ _)
  · exact exec_skips_iff_not rfl (byte_bne_iff _ _)
  · exact exec_skips_iff rfl (byte_beq_iff _ _)
  · exact exec_skips_iff_not rfl (byte_bne_iff _ _)

theorem keyOf_eq (s : State) {a : Byte} {k : Fin 16} (h : k.val = a.toNat % 16) : s.keyOf a = s.key[k.val] := by
  simp [State.keyOf, lowNibble_toNat, h]

/-- Settles O53: each key skip is decided by the key that the low nibble names. -/
theorem keySkipsTestTheNamedKey : Obligations.KeySkipsTestTheNamedKey := by
  intro x s k named
  have key := keyOf_eq s named
  refine ⟨exec_skips_iff (i := .skpEx9E x) rfl (by rw [key]), exec_skips_iff_not (i := .sknpExA1 x) rfl ?_⟩
  rw [key, Bool.not_eq_true', Bool.not_eq_true]

end Sys2Proof.Machine

/-! ### Index register, timers, keypad, random byte, `CLS` (43_load_index_memory.md R142 to R144,
44_timer_keypad_random.md R161 to R168, 45_display.md R181) -/

namespace Sys2Proof.Machine

theorem exec_ldAnnn (nnn : Addr12) (s : State) : exec (.ldAnnn nnn) s = .next (s.setIdx (addrWord nnn)) := rfl

theorem exec_addFx1E (x : Reg) (s : State) : exec (.addFx1E x) s = .next (s.setIdx (s.idx + byteWord (s.reg x))) := rfl

theorem exec_ldFx29 (x : Reg) (s : State) : exec (.ldFx29 x) s = .next (s.setIdx (glyphAddress (s.reg x))) := rfl

theorem exec_ldFx07 (x : Reg) (s : State) : exec (.ldFx07 x) s = .next (s.setReg x s.dt) := rfl

theorem exec_ldFx15 (x : Reg) (s : State) : exec (.ldFx15 x) s = .next (s.setDt (s.reg x)) := rfl

theorem exec_ldFx18 (x : Reg) (s : State) : exec (.ldFx18 x) s = .next (s.setSt (s.reg x)) := rfl

theorem exec_rndCxkk (x : Reg) (kk : Byte) (s : State) :
    exec (.rndCxkk x kk) s = .next (s.setReg x (Config.rndByte s.draws &&& kk)).countDraw := rfl

theorem exec_cls00E0 (s : State) : exec .cls00E0 s = .next (s.setFb 0) := rfl

theorem setIdx_frame (s : State) (w : Word) : OnlyChanges (· = .idx) s (s.setIdx w) := onlyChanges_setIdx s w rfl

theorem word_add_byteWord_toNat (w : Word) (b : Byte) : (w + byteWord b).toNat = (w.toNat + b.toNat) % 65536 := by
  unfold byteWord
  bv_omega

/-- Settles O45: `I` alone is written, with the address or the wrapped sum. -/
theorem indexLoadAndAddLeaveTheFlag : Obligations.IndexLoadAndAddLeaveTheFlag := fun s =>
  ⟨fun nnn => ⟨_, exec_ldAnnn nnn s, addrWord_toNat nnn, setIdx_frame s _⟩,
    fun x => ⟨_, exec_addFx1E x s, word_add_byteWord_toNat s.idx (s.reg x), setIdx_frame s _⟩⟩

theorem glyphAddress_toNat (a : Byte) : (glyphAddress a).toNat = 0x050 + 5 * (a.toNat % 16) := by
  have := lowNibble_toNat a
  unfold glyphAddress
  bv_omega

/-- Settles O46: five bytes to a glyph. -/
theorem glyphAddressFromLowNibble : Obligations.GlyphAddressFromLowNibble := fun x =>
  ⟨decodeWord_encode (.ldFx29 x) rfl, fun s => ⟨_, exec_ldFx29 x s, glyphAddress_toNat (s.reg x), setIdx_frame s _⟩⟩

/-- Settles O51: each copy is one update of the state, which the step then ticks. -/
theorem timerInstructionsCopyThenTick : Obligations.TimerInstructionsCopyThenTick := by
  intro x
  have decoded07 : decodeWord (wordXKK 0xF x 0x07) = .ldFx07 x := decodeWord_encode (.ldFx07 x) rfl
  have decoded15 : decodeWord (wordXKK 0xF x 0x15) = .ldFx15 x := decodeWord_encode (.ldFx15 x) rfl
  have decoded18 : decodeWord (wordXKK 0xF x 0x18) = .ldFx18 x := decodeWord_encode (.ldFx18 x) rfl
  refine ⟨decoded07, decoded15, decoded18, fun s => ⟨?_, ?_, ?_⟩, fun s =>
    ⟨fun fetched => ?_, fun fetched => ?_, fun fetched => ?_⟩⟩
  · exact ⟨_, exec_ldFx07 x s, setReg_reg_same s x _, setReg_frame s x _⟩
  · exact ⟨_, exec_ldFx15 x s, rfl, onlyChanges_setDt s _ rfl⟩
  · exact ⟨_, exec_ldFx18 x s, rfl, onlyChanges_setSt s _ rfl⟩
  · exact ⟨_, step_of_exec_running fetched decoded07 (exec_ldFx07 x s.advance) fetched.1,
      setReg_reg_same s.advance x _, tickByte_toNat s.dt⟩
  · exact ⟨_, step_of_exec_running fetched decoded15 (exec_ldFx15 x s.advance) fetched.1, tickByte_toNat (s.reg x)⟩
  · exact ⟨_, step_of_exec_running fetched decoded18 (exec_ldFx18 x s.advance) fetched.1, tickByte_toNat (s.reg x)⟩

theorem exec_ldFx0A_of_some {s : State} {k : Nat} (x : Reg) (h : s.lowestKey = some k) :
    exec (.ldFx0A x) s = .next (s.setReg x (BitVec.ofNat 8 k)) := by
  simp only [exec, execLdFx0A, h]

theorem exec_ldFx0A_of_none {s : State} (x : Reg) (h : s.lowestKey = none) :
    exec (.ldFx0A x) s = .next s.rewind := by
  simp only [exec, execLdFx0A, h]

/-- Settles O52: the scan finds the lowest pressed key, or none. -/
theorem keyWaitStoresLowestKeyOrRetries : Obligations.KeyWaitStoresLowestKeyOrRetries := by
  refine fun x s => ⟨fun k pressed lowest => ?_, fun notPressed => ?_⟩
  · have found : s.lowestKey = some k.val :=
      (lowestKey_some s k.val).2 ⟨k.isLt, pressed, fun j below => lowest ⟨j, below.trans k.isLt⟩ below⟩
    refine ⟨_, exec_ldFx0A_of_some x found, ?_, setReg_frame s x _⟩
    rw [setReg_reg_same, BitVec.toNat_ofNat]
    omega
  · have notFound : s.lowestKey = none := (lowestKey_none s).2 fun k hk => notPressed ⟨k, hk⟩
    exact ⟨_, exec_ldFx0A_of_none x notFound, rfl, setPc_frame s _⟩

/-- Settles O54: the drawn byte under the mask, and one draw counted. -/
theorem randomByteIsMasked : Obligations.RandomByteIsMasked := by
  intro x kk s
  refine ⟨_, exec_rndCxkk x kk s, fun i => ?_, rfl,
    (onlyChanges_setReg s x _ (.inl rfl)).trans (onlyChanges_countDraw _ (.inr rfl))⟩
  rw [countDraw_reg, setReg_reg_same, BitVec.getLsbD_and]

/-- Settles O55: the display is all zero bits. -/
theorem clearTurnsEveryCellOff : Obligations.ClearTurnsEveryCellOff := fun s =>
  ⟨_, exec_cls00E0 s, fun _ => BitVec.getLsbD_zero, onlyChanges_setFb s _ fun i => ⟨i, rfl⟩⟩

end Sys2Proof.Machine

/-! ### Stores and loads at `I` (43_load_index_memory.md R145 to R148) -/

namespace Sys2Proof.Machine

theorem ofNat8_toNat {n : Nat} (h : n < 256) : (BitVec.ofNat 8 n).toNat = n := by
  rw [BitVec.toNat_ofNat, Nat.mod_eq_of_lt h]

/-- Settles O47: the three digits fit and are stored, or the instruction has cause to fault. -/
theorem decimalDigitsStoredOrFault : Obligations.DecimalDigitsStoredOrFault := by
  intro x
  have decoded : decodeWord (wordXKK 0xF x 0x33) = .ldFx33 x := decodeWord_encode (.ldFx33 x) rfl
  refine ⟨decoded, fun s fits => ?_, fun s out fetched => ?_⟩
  · obtain ⟨m, _, executed, reads, _⟩ | ⟨out, _⟩ := execLdFx33_cases s x
    · have byte : (s.reg x).toNat < 256 := (s.reg x).isLt
      refine ⟨_, executed, ?_, ?_, ?_, onlyChanges_store reads fun k inside => ?_⟩
      · rw [reads, if_pos (Nat.le_refl _), Nat.sub_self]
        exact ofNat8_toNat (by omega)
      · rw [reads, if_pos (Nat.le_add_right _ 1), Nat.add_sub_cancel_left]
        exact ofNat8_toNat (by omega)
      · rw [reads, if_pos (Nat.le_add_right _ 2), Nat.add_sub_cancel_left]
        exact ofNat8_toNat (by omega)
      · rw [decimalDigits_length] at inside
        interval_cases k <;> simp
    · exact absurd fits (Nat.not_lt_of_le out)
  · exact step_of_faults_frame fetched (by rw [decoded]; exact ⟨rfl, out⟩)

/-- The number of registers that a transfer moves, as R146 says it. -/
theorem eq_regCount {mode : RegRangeMode} {x : Reg} {count : Nat}
    (h : count = match mode with
      | .exclusive => x.val
      | .inclusive => x.val + 1) : count = regCount mode x := by
  rw [h]
  cases mode <;> rfl

/-- A byte of a dump reads as the register it was stored from. -/
theorem dump_byteAt {s : State} {x z : Reg} {m : Memory} (inside : z.val < regCount s.straps.regRange x)
    (reads : ∀ c, ({ s with mem := m } : State).byteAt c = if s.idx.toNat ≤ c then
      (s.firstRegs (regCount s.straps.regRange x)).getD (c - s.idx.toNat) (s.byteAt c) else s.byteAt c) :
    ({ s with mem := m } : State).byteAt (s.idx.toNat + z.val) = s.reg z := by
  rw [reads, if_pos (Nat.le_add_right ..), Nat.add_sub_cancel_left, firstRegs_getD _ _ _ z.isLt, if_pos inside]

/-- Settles O48: the range fits and is stored, or the instruction has cause to fault. -/
theorem registerDumpStoresTheRangeOrFaults : Obligations.RegisterDumpStoresTheRangeOrFaults := by
  intro x s count hcount
  obtain rfl := eq_regCount hcount
  refine ⟨fun fits => ?_, fun nonempty out fetched => ?_⟩
  · obtain ⟨m, _, executed, reads, _⟩ | ⟨nonempty, out, _⟩ := execLdFx55_cases s x
    · refine ⟨_, executed, fun z inside => dump_byteAt inside reads, onlyChanges_store reads fun k inside => ?_⟩
      exact ⟨k, by rwa [firstRegs_regCount_length] at inside, rfl⟩
    · have : memSize = 4096 := rfl
      omega
  · have decoded : decodeWord (wordXKK 0xF x 0x55) = .ldFx55 x := decodeWord_encode (.ldFx55 x) rfl
    exact step_of_faults_frame fetched (by rw [decoded]; exact ⟨rfl, nonempty, out⟩)

theorem exec_ldFx65_of_fits (s : State) (x : Reg)
    (fits : regCount s.straps.regRange x = 0 ∨ s.idx.toNat + regCount s.straps.regRange x ≤ memSize) :
    ∃ v : Vector Byte 16, exec (.ldFx65 x) s = .next { s with v := v } ∧
      ∀ z : Reg, ({ s with v := v } : State).reg z =
        if z.val < regCount s.straps.regRange x then s.byteAt (s.idx.toNat + z.val) else s.reg z := by
  obtain ⟨_, loaded⟩ | ⟨nonempty, out, _⟩ := execLdFx65_cases s x
  · exact loaded
  · omega

/-- Settles O49: the range fits and is loaded, or the instruction has cause to fault. -/
theorem registerLoadReadsTheRangeOrFaults : Obligations.RegisterLoadReadsTheRangeOrFaults := by
  intro x s count hcount
  obtain rfl := eq_regCount hcount
  refine ⟨fun fits => ?_, fun nonempty out fetched => ?_⟩
  · obtain ⟨v, executed, reads⟩ := exec_ldFx65_of_fits s x fits
    refine ⟨_, executed, fun z inside => ?_, onlyChanges_regs s v fun z outside => ?_⟩
    · rw [reads, if_pos inside]
    · rw [reads, if_neg fun inside => outside ⟨z, inside, rfl⟩]
  · have decoded : decodeWord (wordXKK 0xF x 0x65) = .ldFx65 x := decodeWord_encode (.ldFx65 x) rfl
    exact step_of_faults_frame fetched (by rw [decoded]; exact ⟨rfl, nonempty, out⟩)

/-- Settles O50: the load reads the range that the dump wrote, and the dump fitting, the load fits. -/
theorem dumpThenLoadRestoresTheRange : Obligations.DumpThenLoadRestoresTheRange := by
  intro x s t v dumped running
  obtain ⟨f, _, rfl⟩ | ⟨m, fits, rfl, written, _⟩ := exec_inversion dumped
  · cases running
  obtain ⟨u, loaded, reads⟩ := exec_ldFx65_of_fits { s with mem := m, v := v } x fits
  refine ⟨_, loaded, fun z => (reads z).trans ?_⟩
  show (if z.val < regCount s.straps.regRange x then _ else v[z.val]) = _
  split
  next inside => exact dump_byteAt (s := s) inside written
  next => rfl

end Sys2Proof.Machine

/-! ### `DRW` (45_display.md R182 to R185) -/

namespace Sys2Proof.Machine

section
variable (x y : Reg) (n : Nibble) (s : State)

/-- The cells that the set bits of the sprite at `I` fall on, in drawing order (R183). -/
def State.drawnCells : List Nat :=
  spriteCells s.straps.drawEdge (s.drawColumn x) (s.drawRow y)
    ((List.range n.toNat).map fun r => s.byteAt (s.idx.toNat + r))

theorem exec_drwDxyn_of_fits (fits : n.toNat = 0 ∨ s.idx.toNat + n.toNat ≤ 4096) :
    exec (.drwDxyn x y n) s = .next ((s.setFb (drawCells s.fb (s.drawnCells x y n)).1).setReg regF
      (flagByte (drawCells s.fb (s.drawnCells x y n)).2)) := by
  obtain ⟨_, executed⟩ | ⟨nonempty, out, _⟩ := execDrwDxyn_cases s x y n
  · exact executed
  · have : memSize = 4096 := rfl
    omega

theorem drawnCells_eq_flatMap : s.drawnCells x y n =
    (List.range n.toNat).flatMap (fun r =>
      ((List.range 8).filter (fun c => (s.byteAt (s.idx.toNat + r)).getLsbD (7 - c))).map (fun c =>
        cellIndex s.straps.drawEdge (s.drawColumn x + c) (s.drawRow y + r))) :=
  spriteCells_map_range ..

theorem drawnCells_lt {j : Nat} (h : j ∈ s.drawnCells x y n) : j < 2048 := spriteCells_lt h

end

theorem flagByte_toNat_eq_one_iff {b : Bool} {p : Prop} (h : b = true ↔ p) : (flagByte b).toNat = 1 ↔ p := by
  rw [flagByte_toNat, ← h]
  cases b <;> simp

theorem flagByte_toNat_eq_zero_iff {b : Bool} {p : Prop} (h : b = true ↔ p) : (flagByte b).toNat = 0 ↔ ¬ p := by
  rw [flagByte_toNat, ← h]
  cases b <;> simp

/-- A collision, by the cells before the one that collides (R185). -/
theorem drawCells_hit_iff {fb : BitVec 2048} {cells : List Nat} (inside : ∀ j ∈ cells, j < 2048) :
    (drawCells fb cells).2 = true ↔ ∃ before i after, cells = before ++ i :: after ∧
      (fb.getLsbD i ^^ decide (before.count i % 2 = 1)) = true := by
  rw [drawCells_hit]
  refine exists_congr fun before => exists_congr fun i => exists_congr fun after => and_congr_right fun cut => ?_
  rw [drawCells_cell fb before i (inside i (by simp [cut]))]

/-- Settles O56: the model's list of cells is the statement's, toggled one after another. -/
theorem drawTogglesCellsAndDetectsCollision : Obligations.DrawTogglesCellsAndDetectsCollision := by
  intro x y n s fits cells hcells
  obtain rfl : cells = s.drawnCells x y n := by
    rw [hcells, drawnCells_eq_flatMap]
    cases s.straps.drawEdge <;> rfl
  have hit := drawCells_hit_iff (fb := s.fb) fun j => drawnCells_lt x y n s
  refine ⟨_, exec_drwDxyn_of_fits x y n s fits, fun i => ?_, ?_, ?_, ?_⟩
  · exact drawCells_cell s.fb _ i.val i.isLt
  · rw [setReg_reg_same]
    exact flagByte_toNat_eq_one_iff hit
  · rw [setReg_reg_same]
    exact flagByte_toNat_eq_zero_iff hit
  · exact (onlyChanges_setFb s _ fun i => .inr ⟨i, rfl⟩).trans (onlyChanges_setReg _ regF _ (.inl rfl))

/-- Settles O58: the instruction has cause to fault. -/
theorem drawOutsideMemoryFaults : Obligations.DrawOutsideMemoryFaults := by
  intro x y n s nonempty out fetched
  have decoded : decodeWord (wordXYN 0xD x y n) = .drwDxyn x y n := decodeWord_encode (.drwDxyn x y n) rfl
  exact step_of_faults_frame fetched (by rw [decoded]; exact ⟨rfl, nonempty, out⟩)

/-! In `WRAP` mode no cell is drawn twice, so a cell is toggled once or not at all. -/

section
variable {x y : Reg} {n : Nibble} {s : State}

theorem mem_drawnCells_iff (j : Nat) : j ∈ s.drawnCells x y n ↔ ∃ r c, r < n.toNat ∧ c < 8 ∧
    (s.byteAt (s.idx.toNat + r)).getLsbD (7 - c) = true ∧
    cellIndex s.straps.drawEdge (s.drawColumn x + c) (s.drawRow y + r) = j := by
  simp only [drawnCells_eq_flatMap, List.mem_flatMap, List.mem_map, List.mem_filter, List.mem_range]
  constructor
  · rintro ⟨r, hr, c, ⟨hc, bit⟩, e⟩
    exact ⟨r, c, hr, hc, bit, e⟩
  · rintro ⟨r, c, hr, hc, bit, e⟩
    exact ⟨r, hr, c, ⟨hc, bit⟩, e⟩

/-- On a wrapping display the pixels of a sprite, at most 8 wide and 32 high, fall on different cells. -/
theorem cellIndex_wrap_inj {x0 y0 r r' c c' : Nat} (hr : r < 32) (hr' : r' < 32) (hc : c < 8) (hc' : c' < 8)
    (h : cellIndex .wrap (x0 + c) (y0 + r) = cellIndex .wrap (x0 + c') (y0 + r')) : r = r' ∧ c = c' := by
  simp only [cellIndex, displayWidth, displayHeight] at h
  omega

/-- The cell of a pixel on a wrapping display, by column and row. -/
theorem cellIndex_wrap_eq_iff {x0 y0 r c cx cy : Nat} (hx : cx < 64) :
    cellIndex .wrap (x0 % 64 + c) (y0 % 32 + r) = cy * 64 + cx ↔ (x0 + c) % 64 = cx ∧ (y0 + r) % 32 = cy := by
  simp only [cellIndex, displayWidth, displayHeight, Nat.mod_add_mod]
  omega

theorem drawnCells_nodup (wrap : s.straps.drawEdge = .wrap) : (s.drawnCells x y n).Nodup := by
  have rows : n.toNat < 16 := n.isLt
  rw [drawnCells_eq_flatMap, wrap, List.nodup_flatMap]
  constructor
  · intro r hr
    have hr := List.mem_range.1 hr
    refine List.Nodup.map_on (fun c hc c' hc' e => ?_) (List.nodup_range.filter _)
    have hc := List.mem_range.1 (List.mem_of_mem_filter hc)
    have hc' := List.mem_range.1 (List.mem_of_mem_filter hc')
    exact (cellIndex_wrap_inj (by omega) (by omega) hc hc' e).2
  · refine List.nodup_range.imp_of_mem fun {r r'} hr hr' differ => ?_
    have hr := List.mem_range.1 hr
    have hr' := List.mem_range.1 hr'
    refine List.disjoint_left.2 fun j inRow inRow' => ?_
    obtain ⟨c, hc, rfl⟩ := List.mem_map.1 inRow
    obtain ⟨c', hc', e⟩ := List.mem_map.1 inRow'
    have hc := List.mem_range.1 (List.mem_of_mem_filter hc)
    have hc' := List.mem_range.1 (List.mem_of_mem_filter hc')
    exact differ (cellIndex_wrap_inj (by omega) (by omega) hc hc' e.symm).1

/-- Toggling each listed cell once: the listed ones change. -/
theorem drawCells_cell_ne_iff {fb : BitVec 2048} {cells : List Nat} (nodup : cells.Nodup) {j : Nat} (hj : j < 2048) :
    (drawCells fb cells).1.getLsbD j ≠ fb.getLsbD j ↔ j ∈ cells := by
  rw [drawCells_cell fb cells j hj, nodup.count]
  split
  next listed => simp [listed]
  next notListed => simp [notListed]

/-- Toggling each listed cell once: a collision is a listed cell that was on. -/
theorem drawCells_hit_iff_of_nodup {fb : BitVec 2048} {cells : List Nat} (nodup : cells.Nodup)
    (inside : ∀ j ∈ cells, j < 2048) : (drawCells fb cells).2 = true ↔ ∃ j ∈ cells, fb.getLsbD j = true := by
  rw [drawCells_hit_iff inside]
  constructor
  · rintro ⟨before, i, after, rfl, on⟩
    have first : i ∉ before := fun earlier => (List.disjoint_of_nodup_append nodup) earlier (List.mem_cons_self ..)
    rw [List.count_eq_zero_of_not_mem first] at on
    exact ⟨i, by simp, by simpa using on⟩
  · rintro ⟨j, listed, on⟩
    obtain ⟨before, after, rfl⟩ := List.append_of_mem listed
    have first : j ∉ before := fun earlier => (List.disjoint_of_nodup_append nodup) earlier (List.mem_cons_self ..)
    exact ⟨before, j, after, rfl, by simpa [List.count_eq_zero_of_not_mem first] using on⟩

end

/-- Settles O57: in `WRAP` mode the drawn cells are the covered ones, each drawn once. -/
theorem wrappedDrawIsXorAndIntersection : Obligations.WrappedDrawIsXorAndIntersection := by
  intro x y n s wrap fits covers hcovers
  have nodup : (s.drawnCells x y n).Nodup := drawnCells_nodup wrap
  have covered : ∀ cx cy, cx < 64 → cy < 32 → (cy * 64 + cx ∈ s.drawnCells x y n ↔ covers cx cy) := by
    intro cx cy hx hy
    rw [mem_drawnCells_iff, hcovers, wrap]
    refine exists_congr fun r => exists_congr fun c => ?_
    exact and_congr_right' (and_congr_right' (and_congr_right' (cellIndex_wrap_eq_iff hx)))
  have hit : (drawCells s.fb (s.drawnCells x y n)).2 = true ↔
      ∃ cx cy, covers cx cy ∧ s.cell (cy * 64 + cx) = true := by
    rw [drawCells_hit_iff_of_nodup nodup fun j => drawnCells_lt x y n s]
    constructor
    · rintro ⟨j, listed, on⟩
      have hj := drawnCells_lt x y n s listed
      obtain ⟨cx, cy, hx, hy, rfl⟩ : ∃ cx cy, cx < 64 ∧ cy < 32 ∧ j = cy * 64 + cx :=
        ⟨j % 64, j / 64, by omega, by omega, (Nat.div_add_mod' j 64).symm⟩
      exact ⟨cx, cy, (covered cx cy hx hy).1 listed, on⟩
    · rintro ⟨cx, cy, cover, on⟩
      obtain ⟨r, c, _, _, _, hx, hy⟩ := (hcovers cx cy).1 cover
      exact ⟨_, (covered cx cy (by omega) (by omega)).2 cover, on⟩
  refine ⟨_, exec_drwDxyn_of_fits x y n s fits, fun cx cy => ?_, ?_, ?_⟩
  · rw [← covered _ _ cx.isLt cy.isLt]
    exact drawCells_cell_ne_iff nodup (by omega)
  · rw [setReg_reg_same]
    exact flagByte_toNat_eq_one_iff hit
  · rw [setReg_reg_same]
    exact flagByte_toNat_eq_zero_iff hit

end Sys2Proof.Machine
